-- ==== Sys2Proof/Word.lean ====
section
/-! DEFINITION. The word, byte and register-index types of the lc3-vm core (spec 00_scope.md R6, R8). -/

namespace Sys2Proof

/-- A register, a memory cell, an address or an internal signal: 16 bits (R6 `WORD`, R8). -/
abbrev Word := BitVec 16

/-- One character of the host's byte channels (R13). -/
abbrev Byte := BitVec 8

/-- The index of a general register, R0 to R7 (R6 `NUM_GPR`, R21). -/
abbrev Reg := Fin 8

end Sys2Proof
end

