-- ==== Sys2Proof/Syntax.lean ====
section
/-! DEFINITION. The instructions: one constructor per row of spec/opcode_table.json, in the table's order.
Fields stand in the order of their bits, highest first. A field named `unused` holds bits the instruction does not
read (spec 30_encoding.md R77); the syntax keeps them so that every word is the encoding of exactly one instruction. -/

namespace Sys2Proof

/-- An instruction with its operands (R64 to R75). The last seven constructors are the table's alias rows (log entry 12). -/
inductive Instr where
  /-- BR, format PC9 (R69, R140): `nzp` is `ir[11:9]`. -/
  | br (nzp : BitVec 3) (offset9 : BitVec 9)
  /-- ADD, format OPR (R66, R102). -/
  | addReg (dr sr1 : Reg) (unused : BitVec 2) (sr2 : Reg)
  /-- ADD, format OPI (R67, R103). -/
  | addImm (dr sr1 : Reg) (imm5 : BitVec 5)
  /-- LD, format PC9 (R69, R121). -/
  | ld (dr : Reg) (offset9 : BitVec 9)
  /-- ST, format PC9 (R69, R125). -/
  | st (sr : Reg) (offset9 : BitVec 9)
  /-- JSRR, format JSRR (R72, R144). -/
  | jsrr (unusedHi : BitVec 2) (base : Reg) (unusedLo : BitVec 6)
  /-- JSR, format JSR (R71, R143). -/
  | jsr (offset11 : BitVec 11)
  /-- AND, format OPR (R66, R104). -/
  | andReg (dr sr1 : Reg) (unused : BitVec 2) (sr2 : Reg)
  /-- AND, format OPI (R67, R105). -/
  | andImm (dr sr1 : Reg) (imm5 : BitVec 5)
  /-- LDR, format BASE6 (R70, R123). -/
  | ldr (dr base : Reg) (offset6 : BitVec 6)
  /-- STR, format BASE6 (R70, R127). -/
  | str (sr base : Reg) (offset6 : BitVec 6)
  /-- RTI, format NONE (R75, R162). -/
  | rti (unused : BitVec 12)
  /-- NOT, format NOT (R68, R106). -/
  | not (dr sr : Reg) (unused : BitVec 6)
  /-- LDI, format PC9 (R69, R122). -/
  | ldi (dr : Reg) (offset9 : BitVec 9)
  /-- STI, format PC9 (R69, R126). -/
  | sti (sr : Reg) (offset9 : BitVec 9)
  /-- JMP, format JMP (R73, R141). -/
  | jmp (unusedHi : BitVec 3) (base : Reg) (unusedLo : BitVec 6)
  /-- RES, format NONE (R75, R163). -/
  | res (unused : BitVec 12)
  /-- LEA, format PC9 (R69, R124). -/
  | lea (dr : Reg) (offset9 : BitVec 9)
  /-- TRAP, format TRAP (R74, R160, R161). -/
  | trap (unused : BitVec 4) (vector : BitVec 8)
  /-- RET, JMP with BaseR = 7 (R142). -/
  | ret (unusedHi : BitVec 3) (unusedLo : BitVec 6)
  /-- GETC, TRAP 0x20 (R171). -/
  | getc (unused : BitVec 4)
  /-- OUT, TRAP 0x21 (R172). -/
  | out (unused : BitVec 4)
  /-- PUTS, TRAP 0x22 (R173). -/
  | puts (unused : BitVec 4)
  /-- IN, TRAP 0x23 (R174). -/
  | inp (unused : BitVec 4)
  /-- PUTSP, TRAP 0x24 (R175). -/
  | putsp (unused : BitVec 4)
  /-- HALT, TRAP 0x25 (R176). -/
  | halt (unused : BitVec 4)
  deriving DecidableEq, Repr

end Sys2Proof
end

