-- ==== Sys2Proof/WellFormed.lean ====
section
/-! DEFINITION. Which terms of `Instr` are the reading of a word. Every field value is legal (spec 30_encoding.md R77,
C6), so the only checks are that a word with a row of its own is not written as its base row: JMP R7 is RET's word and
TRAP 0x20 to 0x25 are the services' (log entry 12). -/

namespace Sys2Proof

/-- The six service codes (30_encoding.md R64, R78). -/
def isServiceVector (v : BitVec 8) : Bool := 0x20 ≤ v.toNat && v.toNat ≤ 0x25

/-- `i` is what the decoder reads from some word. -/
def Instr.wellFormed : Instr → Bool
  | .br _ _ => true
  | .addReg _ _ _ _ => true
  | .addImm _ _ _ => true
  | .ld _ _ => true
  | .st _ _ => true
  | .jsrr _ _ _ => true
  | .jsr _ => true
  | .andReg _ _ _ _ => true
  | .andImm _ _ _ => true
  | .ldr _ _ _ => true
  | .str _ _ _ => true
  | .rti _ => true
  | .not _ _ _ => true
  | .ldi _ _ => true
  | .sti _ _ => true
  | .jmp _ base _ => base ≠ 7
  | .res _ => true
  | .lea _ _ => true
  | .trap _ vector => !isServiceVector vector
  | .ret _ _ => true
  | .getc _ => true
  | .out _ => true
  | .puts _ => true
  | .inp _ => true
  | .putsp _ => true
  | .halt _ => true

end Sys2Proof
end

