-- ==== Sys2Proof/Decode.lean ====
section
/-! DEFINITION. The decoder, the encoder and the opcode table (spec 30_encoding.md R62 to R79, opcode_table.json). -/

namespace Sys2Proof

/-- `w[lo+len-1 : lo]` (00_scope.md R7). -/
def field (w : Word) (lo len : Nat) : BitVec len := w.extractLsb' lo len

/-- The register index in the three bits from `lo` up (R65: "all 3-bit fields selecting R0–R7"). -/
def regField (w : Word) (lo : Nat) : Reg := (field w lo 3).toFin

/-- The word that holds `b` from bit `lo` up and 0 elsewhere. -/
def place {n : Nat} (b : BitVec n) (lo : Nat) : Word := b.setWidth 16 <<< lo

/-- The three bits that name a register. -/
def regBits (r : Reg) : BitVec 3 := BitVec.ofFin r

/-- The word that holds register `r`'s index in the three bits from `lo` up. -/
def placeReg (r : Reg) (lo : Nat) : Word := place (regBits r) lo

/-- The sixteen opcodes (R64). -/
inductive Opcode where
  | br | add | ld | st | jsr | and | ldr | str | rti | not | ldi | sti | jmp | res | lea | trap
  deriving DecidableEq, Repr

/-- The opcode of `ir[15:12]` (R62, R64; the numbers are the spec's decision D1, log entry 13). -/
def opcodeOf (n : BitVec 4) : Opcode :=
  match n.toNat with
  | 0x0 => .br
  | 0x1 => .add
  | 0x2 => .ld
  | 0x3 => .st
  | 0x4 => .jsr
  | 0x5 => .and
  | 0x6 => .ldr
  | 0x7 => .str
  | 0x8 => .rti
  | 0x9 => .not
  | 0xA => .ldi
  | 0xB => .sti
  | 0xC => .jmp
  | 0xD => .res
  | 0xE => .lea
  | _ => .trap

/-- ADD's two forms, told apart by `ir[5]` (R65 `mode`, R66, R67). -/
def decodeAdd (w : Word) : Instr :=
  if field w 5 1 = 1#1 then .addImm (regField w 9) (regField w 6) (field w 0 5)
  else .addReg (regField w 9) (regField w 6) (field w 3 2) (regField w 0)

/-- AND's two forms, told apart by `ir[5]`. -/
def decodeAnd (w : Word) : Instr :=
  if field w 5 1 = 1#1 then .andImm (regField w 9) (regField w 6) (field w 0 5)
  else .andReg (regField w 9) (regField w 6) (field w 3 2) (regField w 0)

/-- JSR and JSRR, told apart by `ir[11]` (R71, R72). -/
def decodeJsr (w : Word) : Instr :=
  if field w 11 1 = 1#1 then .jsr (field w 0 11)
  else .jsrr (field w 9 2) (regField w 6) (field w 0 6)

/-- JMP, and its alias row RET when BaseR is R7 (R73, R142). -/
def decodeJmp (w : Word) : Instr :=
  if regField w 6 = 7 then .ret (field w 9 3) (field w 0 6)
  else .jmp (field w 9 3) (regField w 6) (field w 0 6)

/-- TRAP, and its alias rows for the six service vectors (R74, R78, R171 to R176). -/
def decodeTrap (w : Word) : Instr :=
  match (field w 0 8).toNat with
  | 0x20 => .getc (field w 8 4)
  | 0x21 => .out (field w 8 4)
  | 0x22 => .puts (field w 8 4)
  | 0x23 => .inp (field w 8 4)
  | 0x24 => .putsp (field w 8 4)
  | 0x25 => .halt (field w 8 4)
  | _ => .trap (field w 8 4) (field w 0 8)

/-- The instruction a word is: total, since every one of the 65536 words decodes (R79). -/
def decodeWord (w : Word) : Instr :=
  match opcodeOf (field w 12 4) with
  | .br => .br (field w 9 3) (field w 0 9)
  | .add => decodeAdd w
  | .ld => .ld (regField w 9) (field w 0 9)
  | .st => .st (regField w 9) (field w 0 9)
  | .jsr => decodeJsr w
  | .and => decodeAnd w
  | .ldr => .ldr (regField w 9) (regField w 6) (field w 0 6)
  | .str => .str (regField w 9) (regField w 6) (field w 0 6)
  | .rti => .rti (field w 0 12)
  | .not => .not (regField w 9) (regField w 6) (field w 0 6)
  | .ldi => .ldi (regField w 9) (field w 0 9)
  | .sti => .sti (regField w 9) (field w 0 9)
  | .jmp => decodeJmp w
  | .res => .res (field w 0 12)
  | .lea => .lea (regField w 9) (field w 0 9)
  | .trap => decodeTrap w

/-- Why a sequence of words gives no instruction. -/
inductive DecodeError where
  /-- There is no word to decode; no word itself is ever refused (R79). -/
  | noWord
  deriving DecidableEq, Repr

/-- The first instruction of a sequence of words and the words after it: each instruction is one word (R82). -/
def decode : List Word → Except DecodeError (Instr × List Word)
  | [] => .error .noWord
  | w :: rest => .ok (decodeWord w, rest)

/-- What the decoder reads from an instruction of opcode_table.json given by its `nbits` lowest bits, the bits above
being 0: the table's bit 0 is the least significant bit of the one word an instruction has. -/
def decodeTableWord (nbits w : Nat) : Option Instr :=
  match decode [BitVec.ofNat 16 (w % 2 ^ nbits)] with
  | .ok (i, _) => some i
  | .error _ => none

/-- The word of an instruction, from the formats R66 to R75 and the alias rows of the table. -/
def encode : Instr → Word
  | .br nzp off => place 0x0#4 12 ||| place nzp 9 ||| place off 0
  | .addReg dr sr1 u sr2 => place 0x1#4 12 ||| placeReg dr 9 ||| placeReg sr1 6 ||| place 0#1 5 ||| place u 3 ||| placeReg sr2 0
  | .addImm dr sr1 imm => place 0x1#4 12 ||| placeReg dr 9 ||| placeReg sr1 6 ||| place 1#1 5 ||| place imm 0
  | .ld dr off => place 0x2#4 12 ||| placeReg dr 9 ||| place off 0
  | .st sr off => place 0x3#4 12 ||| placeReg sr 9 ||| place off 0
  | .jsrr hi base lo => place 0x4#4 12 ||| place 0#1 11 ||| place hi 9 ||| placeReg base 6 ||| place lo 0
  | .jsr off => place 0x4#4 12 ||| place 1#1 11 ||| place off 0
  | .andReg dr sr1 u sr2 => place 0x5#4 12 ||| placeReg dr 9 ||| placeReg sr1 6 ||| place 0#1 5 ||| place u 3 ||| placeReg sr2 0
  | .andImm dr sr1 imm => place 0x5#4 12 ||| placeReg dr 9 ||| placeReg sr1 6 ||| place 1#1 5 ||| place imm 0
  | .ldr dr base off => place 0x6#4 12 ||| placeReg dr 9 ||| placeReg base 6 ||| place off 0
  | .str sr base off => place 0x7#4 12 ||| placeReg sr 9 ||| placeReg base 6 ||| place off 0
  | .rti u => place 0x8#4 12 ||| place u 0
  | .not dr sr u => place 0x9#4 12 ||| placeReg dr 9 ||| placeReg sr 6 ||| place u 0
  | .ldi dr off => place 0xA#4 12 ||| placeReg dr 9 ||| place off 0
  | .sti sr off => place 0xB#4 12 ||| placeReg sr 9 ||| place off 0
  | .jmp hi base lo => place 0xC#4 12 ||| place hi 9 ||| placeReg base 6 ||| place lo 0
  | .res u => place 0xD#4 12 ||| place u 0
  | .lea dr off => place 0xE#4 12 ||| placeReg dr 9 ||| place off 0
  | .trap u v => place 0xF#4 12 ||| place u 8 ||| place v 0
  | .ret hi lo => place 0xC#4 12 ||| place hi 9 ||| place 7#3 6 ||| place lo 0
  | .getc u => place 0xF#4 12 ||| place u 8 ||| place 0x20#8 0
  | .out u => place 0xF#4 12 ||| place u 8 ||| place 0x21#8 0
  | .puts u => place 0xF#4 12 ||| place u 8 ||| place 0x22#8 0
  | .inp u => place 0xF#4 12 ||| place u 8 ||| place 0x23#8 0
  | .putsp u => place 0xF#4 12 ||| place u 8 ||| place 0x24#8 0
  | .halt u => place 0xF#4 12 ||| place u 8 ||| place 0x25#8 0

/-- The base instruction an alias row is a special case of (30_encoding.md's opening: an alias "names the special case of
its base row and does not replace it"); every other instruction is its own. -/
def Instr.base : Instr → Instr
  | .br nzp off => .br nzp off
  | .addReg dr sr1 u sr2 => .addReg dr sr1 u sr2
  | .addImm dr sr1 imm => .addImm dr sr1 imm
  | .ld dr off => .ld dr off
  | .st sr off => .st sr off
  | .jsrr hi base lo => .jsrr hi base lo
  | .jsr off => .jsr off
  | .andReg dr sr1 u sr2 => .andReg dr sr1 u sr2
  | .andImm dr sr1 imm => .andImm dr sr1 imm
  | .ldr dr base off => .ldr dr base off
  | .str sr base off => .str sr base off
  | .rti u => .rti u
  | .not dr sr u => .not dr sr u
  | .ldi dr off => .ldi dr off
  | .sti sr off => .sti sr off
  | .jmp hi base lo => .jmp hi base lo
  | .res u => .res u
  | .lea dr off => .lea dr off
  | .trap u v => .trap u v
  | .ret hi lo => .jmp hi 7 lo
  | .getc u => .trap u 0x20#8
  | .out u => .trap u 0x21#8
  | .puts u => .trap u 0x22#8
  | .inp u => .trap u 0x23#8
  | .putsp u => .trap u 0x24#8
  | .halt u => .trap u 0x25#8

/-- A row of opcode_table.json: a word `w` is the row's when `w &&& mask = pattern`. `used` marks the bits the
instruction reads (R66 to R75: all but the bits marked `x`). -/
structure Row where
  mnemonic : String
  pattern : Word
  mask : Word
  used : Word
  deriving DecidableEq, Repr

/-- The row of opcode_table.json a constructor stands for. -/
def Instr.row : Instr → Row
  | .br _ _ => ⟨"BR", 0x0000#16, 0xF000#16, 0xFFFF#16⟩
  | .addReg _ _ _ _ => ⟨"ADD", 0x1000#16, 0xF020#16, 0xFFE7#16⟩
  | .addImm _ _ _ => ⟨"ADD", 0x1020#16, 0xF020#16, 0xFFFF#16⟩
  | .ld _ _ => ⟨"LD", 0x2000#16, 0xF000#16, 0xFFFF#16⟩
  | .st _ _ => ⟨"ST", 0x3000#16, 0xF000#16, 0xFFFF#16⟩
  | .jsrr _ _ _ => ⟨"JSRR", 0x4000#16, 0xF800#16, 0xF9C0#16⟩
  | .jsr _ => ⟨"JSR", 0x4800#16, 0xF800#16, 0xFFFF#16⟩
  | .andReg _ _ _ _ => ⟨"AND", 0x5000#16, 0xF020#16, 0xFFE7#16⟩
  | .andImm _ _ _ => ⟨"AND", 0x5020#16, 0xF020#16, 0xFFFF#16⟩
  | .ldr _ _ _ => ⟨"LDR", 0x6000#16, 0xF000#16, 0xFFFF#16⟩
  | .str _ _ _ => ⟨"STR", 0x7000#16, 0xF000#16, 0xFFFF#16⟩
  | .rti _ => ⟨"RTI", 0x8000#16, 0xF000#16, 0xF000#16⟩
  | .not _ _ _ => ⟨"NOT", 0x9000#16, 0xF000#16, 0xFFC0#16⟩
  | .ldi _ _ => ⟨"LDI", 0xA000#16, 0xF000#16, 0xFFFF#16⟩
  | .sti _ _ => ⟨"STI", 0xB000#16, 0xF000#16, 0xFFFF#16⟩
  | .jmp _ _ _ => ⟨"JMP", 0xC000#16, 0xF000#16, 0xF1C0#16⟩
  | .res _ => ⟨"RES", 0xD000#16, 0xF000#16, 0xF000#16⟩
  | .lea _ _ => ⟨"LEA", 0xE000#16, 0xF000#16, 0xFFFF#16⟩
  | .trap _ _ => ⟨"TRAP", 0xF000#16, 0xF000#16, 0xF0FF#16⟩
  | .ret _ _ => ⟨"RET", 0xC1C0#16, 0xF1C0#16, 0xF1C0#16⟩
  | .getc _ => ⟨"GETC", 0xF020#16, 0xF0FF#16, 0xF0FF#16⟩
  | .out _ => ⟨"OUT", 0xF021#16, 0xF0FF#16, 0xF0FF#16⟩
  | .puts _ => ⟨"PUTS", 0xF022#16, 0xF0FF#16, 0xF0FF#16⟩
  | .inp _ => ⟨"IN", 0xF023#16, 0xF0FF#16, 0xF0FF#16⟩
  | .putsp _ => ⟨"PUTSP", 0xF024#16, 0xF0FF#16, 0xF0FF#16⟩
  | .halt _ => ⟨"HALT", 0xF025#16, 0xF0FF#16, 0xF0FF#16⟩

/-- The pattern and mask of the table's 19 base rows, in the table's order. -/
def baseRows : List (Word × Word) :=
  [(0x0000#16, 0xF000#16), (0x1000#16, 0xF020#16), (0x1020#16, 0xF020#16), (0x2000#16, 0xF000#16),
   (0x3000#16, 0xF000#16), (0x4000#16, 0xF800#16), (0x4800#16, 0xF800#16), (0x5000#16, 0xF020#16)] ++
  [(0x5020#16, 0xF020#16), (0x6000#16, 0xF000#16), (0x7000#16, 0xF000#16), (0x8000#16, 0xF000#16),
   (0x9000#16, 0xF000#16), (0xA000#16, 0xF000#16), (0xB000#16, 0xF000#16), (0xC000#16, 0xF000#16)] ++
  [(0xD000#16, 0xF000#16), (0xE000#16, 0xF000#16), (0xF000#16, 0xF000#16)]

/-- The pattern and mask of the table's 7 alias rows, in the table's order. -/
def aliasRows : List (Word × Word) :=
  [(0xC1C0#16, 0xF1C0#16), (0xF020#16, 0xF0FF#16), (0xF021#16, 0xF0FF#16), (0xF022#16, 0xF0FF#16), (0xF023#16, 0xF0FF#16),
   (0xF024#16, 0xF0FF#16), (0xF025#16, 0xF0FF#16)]

end Sys2Proof
end

