-- ==== Sys2Proof/Config.lean ====
section
/-! DEFINITION. What one implementation fixes (spec 00_scope.md R6): the entry address, the size of memory, the flag
values, and the two byte strings the spec leaves OPEN. -/

namespace Sys2Proof.Config

/-- `PC_START`, the entry address (R6, R34, R231). -/
def pcStart : Word := 0x3000#16

/-- `MEM_WORDS`, the number of cells (R6, R40). -/
def memWords : Nat := 65536

/-- What a cell holds at Memory construction (R41). -/
def unlistedWord : Word := 0x0000#16

/-- COND's value for a negative result (R28). -/
def negative : Word := 0x0004#16

/-- COND's value for a zero result (R28; the number is the spec's decision D2, log entry 13). -/
def zero : Word := 0x0002#16

/-- COND's value for a positive result (R28; the number is the spec's decision D2, log entry 13). -/
def positive : Word := 0x0001#16

/-- `IN_PROMPT` (R6 OPEN, R174, D14): the bytes IN writes before it reads. No value is fixed (log entry 10). -/
opaque inPrompt : List Byte

/-- `HALT_NOTICE` (R6 OPEN, R176, D15): the bytes HALT writes. No value is fixed (log entry 10). -/
opaque haltNotice : List Byte

end Sys2Proof.Config
end

