-- ==== Sys2Proof/Machine/State.lean ====
section
/-! DEFINITION. The state of the lc3-vm core as plain data (spec 10_state.md, 20_memory.md section 1, 00_scope.md R13),
the reasons a step can stop, and the state after reset. -/

namespace Sys2Proof.Machine

/-- One memory cell that does not hold `Config.unlistedWord`: its word address and its value (log entry 1). -/
abbrev Cell := Nat × Word

/-- The 65536 cells (R40). The canonical form is `Memory.wf` (Machine/Ops.lean). -/
abbrev Memory := List Cell

/-- The sub-cause of IO_FAILURE (R201, D9). -/
inductive IoFailure where
  /-- `InByte()` returned EOS. -/
  | inputEos
  /-- `OutByte` returned `fail`. -/
  | outputFail
  deriving DecidableEq, Repr

/-- The cause of a Fatal outcome (R201). -/
inductive Cause where
  /-- ILLEGAL_OPCODE: RTI and RES. -/
  | illegalOpcode
  /-- UNKNOWN_TRAP_VECTOR: TRAP with a vector outside 0x20 to 0x25. -/
  | unknownTrapVector
  /-- IO_FAILURE: a service whose input ended or whose output failed. -/
  | ioFailure (sub : IoFailure)
  deriving DecidableEq, Repr

/-- What a Fatal outcome records (R202). -/
structure FatalReport where
  cause : Cause
  /-- The offending instruction word. -/
  word : Word
  /-- The address it was fetched from. -/
  address : Word
  deriving DecidableEq, Repr

/-- `run_state` (R32). -/
inductive RunState where
  | running
  | halted
  | fatal (report : FatalReport)
  deriving DecidableEq, Repr

/-- The host's two byte channels (R13). -/
structure Channels where
  /-- The bytes of INPUT the host has supplied and the core has not read, first one first (log entry 8). -/
  input : List Byte
  /-- The host has ended INPUT: after `input`, `InByte()` returns EOS (log entry 8). -/
  inputEnded : Bool
  /-- The bytes OUTPUT has accepted, oldest first (R18). -/
  output : List Byte
  /-- The model's own field: `some n` when the sink answers `ok` to `n` more bytes and then `fail`, `none` when it
  always answers `ok`. It stands for every sequence of answers a run can meet (I13, log entry 7). -/
  sinkRoom : Option Nat
  deriving DecidableEq, Repr

/-- The machine's state. -/
structure State where
  /-- R0 to R7 (R20, R21). -/
  gpr : Vector Word 8
  /-- PC (R25): before fetch the address of the next instruction, during execution the post-increment value. -/
  pc : Word
  /-- COND (R28). -/
  cond : Word
  /-- `run_state`, with the Fatal report (R32, R202). -/
  runState : RunState
  /-- The instruction latch (R33, R61). -/
  ir : Word
  /-- `fetch_pc`, the address `ir` was fetched from (R61, R202). -/
  fetchPc : Word
  /-- Memory (R40). -/
  mem : Memory
  /-- The host's byte channels (R13). -/
  io : Channels
  /-- The block is waiting for input inside the step of the GETC or IN at `pc` (R178, R214). An IN that waits has
  already written its prompt (log entry 5). -/
  waiting : Bool
  deriving DecidableEq, Repr

/-- The reasons the machine stops without a next state: there are none. A fatal error of the spec is the run state
FATAL, a next state (R200, R203, log entry 3), and no other instruction can fail (R201). -/
inductive Fault
  deriving DecidableEq, Repr

/-- The reasons a move has no meaning in the model. -/
inductive Refusal where
  /-- Raised by no instruction: every constructor of `Instr` has its meaning. Safe. -/
  | notModelled (mnemonic : String)
  /-- Raised by the host's `loadBlock` (Machine/HostMoves.lean) for an image that does not fit below 65536; nothing is
  written (R57, I7, D23). Safe: the spec says a model refuses such a load. -/
  | loadPastEnd
  deriving DecidableEq, Repr

/-- The channels before the host has used them (log entry 9): nothing supplied, the stream not ended, nothing
written, a sink that does not fail. -/
def Channels.reset : Channels :=
  { input := [], inputEnded := false, output := [], sinkRoom := none }

/-- The machine right after reset, which is CPU construction over a zero-filled memory (R34, R41, R230). `ir` and
`fetchPc` hold no value there (R33); 0 is the model's choice (log entry 9). -/
def State.reset : State :=
  { gpr := Vector.replicate 8 0x0000#16
    pc := Config.pcStart
    cond := Config.zero
    runState := .running
    ir := 0x0000#16
    fetchPc := 0x0000#16
    mem := []
    io := Channels.reset
    waiting := false }

end Sys2Proof.Machine
end

