-- ==== Sys2Proof/Machine/Ops.lean ====
section
/-! DEFINITION. The shared operations: memory (spec 20_memory.md), the register file (10_state.md R24), the host's
channels (00_scope.md R13), fetch (30_encoding.md R61), a fatal error (60_exceptions.md R203), and TRAP entry with the
answers a service can give (R160, R170, R207). -/

namespace Sys2Proof.Machine

/-! ### Memory -/

/-- What the list holds at an address, `Config.unlistedWord` where it lists nothing (R41). -/
def Memory.cell : Memory → Nat → Word
  | [], _ => Config.unlistedWord
  | (k, v) :: rest, a => if k = a then v else Memory.cell rest a

/-- `MemRead(addr, 1)` (R11, R42): total. -/
def Memory.read (m : Memory) (addr : Word) : Word := Memory.cell m addr.toNat

/-- The list that holds one cell, empty for the value an unlisted address has. -/
def Memory.single (a : Nat) (v : Word) : Memory := if v = Config.unlistedWord then [] else [(a, v)]

/-- `MemWrite(addr, 1, v)` (R11, R43): overwrites one cell and keeps the canonical form. -/
def Memory.write (m : Memory) (addr v : Word) : Memory :=
  m.filter (fun c => c.1 < addr.toNat) ++ Memory.single addr.toNat v ++ m.filter (fun c => addr.toNat < c.1)

/-- The canonical form: addresses strictly rising and below 65536, and no entry equal to what an unlisted address
reads as; so equal memories are equal lists (log entry 1). -/
abbrev Memory.wf (m : Memory) : Prop :=
  m.Pairwise (fun c d => c.1 < d.1) ∧ ∀ c ∈ m, c.1 < Config.memWords ∧ c.2 ≠ Config.unlistedWord

/-! ### The register file -/

/-- `x[i]`, the numeric accessor (R10, R24). -/
def State.reg (s : State) (r : Reg) : Word := s.gpr[r]

/-- `x[i] <- v` (R10). Every register is writable and none is hardwired (R21). -/
def State.setReg (s : State) (r : Reg) (v : Word) : State := { s with gpr := s.gpr.set r v }

/-- The ten slots as one array: R0 to R7, PC, COND (R20, R24). -/
def State.slot (s : State) (i : Fin 10) : Word :=
  if h : i.val < 8 then s.reg ⟨i.val, h⟩ else if i.val = 8 then s.pc else s.cond

/-! ### The host's byte channels -/

/-- The low byte of a word, `v[7:0]` (R7). -/
def lowByte (v : Word) : Byte := v.extractLsb' 0 8

/-- The high byte of a word, `v[15:8]` (R7). -/
def highByte (v : Word) : Byte := v.extractLsb' 8 8

/-- `zext_16(b)` (R9). -/
def zextByte (b : Byte) : Word := b.setWidth 16

/-- The answers of `InByte()` (R13, R178). -/
inductive InAnswer where
  | byte (b : Byte) (io : Channels)
  | eos
  /-- Neither a byte nor the end of the stream is there yet. -/
  | blocked
  deriving DecidableEq, Repr

/-- `InByte()` (R13). -/
def inByte (io : Channels) : InAnswer :=
  match io.input with
  | b :: rest => .byte b { io with input := rest }
  | [] => if io.inputEnded then .eos else .blocked

/-- The answers of `OutByte`, with the channels they leave (R13). -/
inductive OutAnswer where
  | ok (io : Channels)
  | fail (io : Channels)
  deriving DecidableEq, Repr

/-- `OutByte(b)` (R13). -/
def outByte (b : Byte) (io : Channels) : OutAnswer :=
  match io.sinkRoom with
  | none => .ok { io with output := io.output ++ [b] }
  | some 0 => .fail io
  | some (n + 1) => .ok { io with output := io.output ++ [b], sinkRoom := some n }

/-- `OutByte` on each byte in turn, stopping at the first `fail`: the bytes accepted before it stay written (R177).
`Laws/Channels.lean` shows that this is that loop. -/
def outBytes (bs : List Byte) (io : Channels) : OutAnswer :=
  match io.sinkRoom with
  | none => .ok { io with output := io.output ++ bs }
  | some n =>
    if bs.length ≤ n then .ok { io with output := io.output ++ bs, sinkRoom := some (n - bs.length) }
    else .fail { io with output := io.output ++ bs.take n, sinkRoom := some 0 }

/-! ### The instruction cycle -/

/-- Fetch (R61): latch the word at PC and its address, and advance PC modulo 2^16. -/
def State.fetch (s : State) : State :=
  { s with fetchPc := s.pc, ir := s.mem.read s.pc, pc := s.pc + 1 }

/-- The state with the fetch's PC increment taken back and the given channels: the register file and memory as they
were before the fetch of the instruction in `ir`. -/
def State.unfetch (s : State) (io : Channels) : State := { s with pc := s.fetchPc, io := io }

/-- `raise Fatal(cause)` (R12, R202, R203), on the state that fetch left: the register file and memory are as before
the fetch, `io` keeps the bytes the sink accepted, and `run_state` becomes FATAL with the cause, the offending word
and its address. There is no return from it (R204). -/
def raiseFatal (why : Cause) (s : State) (io : Channels) : State :=
  { s.unfetch io with runState := .fatal ⟨why, s.ir, s.fetchPc⟩, waiting := false }

/-! ### TRAP entry and the service port -/

/-- TRAP entry (R160, R207): R7 takes the return address, the post-increment PC, and nothing else changes. A service
returns by going on at PC; there is no return instruction (R208). -/
def trapEntry (s : State) : State := s.setReg 7 s.pc

/-- What a service answers (R170), with what it leaves. -/
inductive ServiceAnswer where
  /-- `continue`: the run goes on at the post-increment PC. -/
  | proceed (s : State)
  /-- `halt` (HALT only). -/
  | halt (s : State)
  /-- `fail` (R177). -/
  | fail (sub : IoFailure) (io : Channels)
  /-- The service waits for input (R178). -/
  | wait (io : Channels)
  /-- The service has not ended and is again at the point where it began (D12, log entry 6). -/
  | again (io : Channels)

/-- A recognised TRAP (R160): enter, run the service, and take its answer. `s` is the state after fetch. A service that
fails raises IO_FAILURE with none of its register writes kept (R177, R203). A service that waits, or whose string has
no end, leaves everything but the channels as before the fetch, so that the next step takes it up again (log entries
5 and 6). -/
def runService (service : State → ServiceAnswer) (s : State) : State :=
  match service (trapEntry s) with
  | .proceed t => { t with waiting := false }
  | .halt t => { t with runState := .halted, waiting := false }
  | .fail sub io => raiseFatal (.ioFailure sub) s io
  | .wait io => { s.unfetch io with waiting := true }
  | .again io => { s.unfetch io with waiting := false }

end Sys2Proof.Machine
end

