-- ==== Sys2Proof/Machine/Flags.lean ====
section
/-! DEFINITION. The flag-derivation logic (spec 41_operate.md section 1) and BR's test (43_control.md R140). -/

namespace Sys2Proof.Machine

/-- The flag of a value (R100). -/
def flagOf (v : Word) : Word :=
  if v = 0x0000#16 then Config.zero else if v.getLsbD 15 then Config.negative else Config.positive

/-- `setcc(v)` (R100). -/
def State.setcc (s : State) (v : Word) : State := { s with cond := flagOf v }

/-- Defining a register (00_scope.md glossary): write it and update COND from it (R101). -/
def State.define (s : State) (r : Reg) (v : Word) : State := (s.setReg r v).setcc v

/-- BR's condition: the mask `n z p` meets COND in a bit (R140, C5). -/
def branchTaken (nzp : BitVec 3) (cond : Word) : Bool := nzp.setWidth 16 &&& cond ≠ 0x0000#16

end Sys2Proof.Machine
end

