-- ==== Sys2Proof/Machine/Operands.lean ====
section
/-! DEFINITION. Sign extension and the effective addresses (spec 00_scope.md R9, 30_encoding.md R76, 42_data_movement.md
R120). `s` is the state after fetch, so `s.pc` is the post-increment PC (R25). -/

namespace Sys2Proof.Machine

/-- `sext_N(f)` (R9): the field's own top bit in every higher bit. -/
def sext {n : Nat} (f : BitVec n) : Word := f.signExtend 16

/-- PC-relative: `pc + sext(offset)` modulo 2^16 (R120; R143 for PCoffset11). -/
def State.pcRelative {n : Nat} (s : State) (offset : BitVec n) : Word := s.pc + sext offset

/-- Base + offset: `x[BaseR] + sext_6(offset6)` modulo 2^16 (R120). -/
def State.baseOffset (s : State) (base : Reg) (offset6 : BitVec 6) : Word := s.reg base + sext offset6

/-- Indirect: the address held by the pointer cell at `pc + sext_9(offset9)` (R120). -/
def State.indirect (s : State) (offset9 : BitVec 9) : Word := s.mem.read (s.pcRelative offset9)

end Sys2Proof.Machine
end

