-- ==== Sys2Proof/Machine/Control.lean ====
section
/-! DEFINITION. BR, JMP, RET, JSR, JSRR (spec 43_control.md). `s` is the state after fetch. -/

namespace Sys2Proof.Machine

/-- `pc <- target` (R10). -/
def State.setPc (s : State) (target : Word) : State := { s with pc := target }

/-- `x[7] <- pc`, the return address of a subroutine call (R143, R144). -/
def State.link (s : State) : State := s.setReg 7 s.pc

/-- BR (R140). -/
def execBr (nzp : BitVec 3) (offset9 : BitVec 9) (s : State) : Host.Outcome State Fault Refusal :=
  if branchTaken nzp s.cond then .next (s.setPc (s.pcRelative offset9)) else .next s

/-- JMP (R141). -/
def execJmp (base : Reg) (s : State) : Host.Outcome State Fault Refusal :=
  .next (s.setPc (s.reg base))

/-- RET (R142). -/
def execRet (s : State) : Host.Outcome State Fault Refusal :=
  .next (s.setPc (s.reg 7))

/-- JSR (R143). -/
def execJsr (offset11 : BitVec 11) (s : State) : Host.Outcome State Fault Refusal :=
  .next (s.link.setPc (s.pcRelative offset11))

/-- JSRR (R144): BaseR is read after R7 is written (D6). -/
def execJsrr (base : Reg) (s : State) : Host.Outcome State Fault Refusal :=
  .next (s.link.setPc (s.link.reg base))

end Sys2Proof.Machine
end

