-- ==== Sys2Proof/Machine/DataMovement.lean ====
section
/-! DEFINITION. Loads, stores and LEA (spec 42_data_movement.md). `s` is the state after fetch. -/

namespace Sys2Proof.Machine

/-- A store of `v` to the cell at `addr` (R125 to R127): no register and no flag changes (R128). -/
def State.store (s : State) (addr v : Word) : State := { s with mem := s.mem.write addr v }

/-- LD (R121). -/
def execLd (dr : Reg) (offset9 : BitVec 9) (s : State) : Host.Outcome State Fault Refusal :=
  .next (s.define dr (s.mem.read (s.pcRelative offset9)))

/-- LDI (R122). -/
def execLdi (dr : Reg) (offset9 : BitVec 9) (s : State) : Host.Outcome State Fault Refusal :=
  .next (s.define dr (s.mem.read (s.indirect offset9)))

/-- LDR (R123). -/
def execLdr (dr base : Reg) (offset6 : BitVec 6) (s : State) : Host.Outcome State Fault Refusal :=
  .next (s.define dr (s.mem.read (s.baseOffset base offset6)))

/-- LEA (R124): no memory access, and it sets the flags (C11). -/
def execLea (dr : Reg) (offset9 : BitVec 9) (s : State) : Host.Outcome State Fault Refusal :=
  .next (s.define dr (s.pcRelative offset9))

/-- ST (R125). -/
def execSt (sr : Reg) (offset9 : BitVec 9) (s : State) : Host.Outcome State Fault Refusal :=
  .next (s.store (s.pcRelative offset9) (s.reg sr))

/-- STI (R126): the pointer is read before the write. -/
def execSti (sr : Reg) (offset9 : BitVec 9) (s : State) : Host.Outcome State Fault Refusal :=
  .next (s.store (s.indirect offset9) (s.reg sr))

/-- STR (R127). -/
def execStr (sr base : Reg) (offset6 : BitVec 6) (s : State) : Host.Outcome State Fault Refusal :=
  .next (s.store (s.baseOffset base offset6) (s.reg sr))

end Sys2Proof.Machine
end

