-- ==== Sys2Proof/Machine/Operate.lean ====
section
/-! DEFINITION. ADD, AND, NOT (spec 41_operate.md). `s` is the state after fetch. -/

namespace Sys2Proof.Machine

/-- ADD, register operand (R102). -/
def execAddReg (dr sr1 sr2 : Reg) (s : State) : Host.Outcome State Fault Refusal :=
  .next (s.define dr (s.reg sr1 + s.reg sr2))

/-- ADD, immediate operand (R103). -/
def execAddImm (dr sr1 : Reg) (imm5 : BitVec 5) (s : State) : Host.Outcome State Fault Refusal :=
  .next (s.define dr (s.reg sr1 + sext imm5))

/-- AND, register operand (R104). -/
def execAndReg (dr sr1 sr2 : Reg) (s : State) : Host.Outcome State Fault Refusal :=
  .next (s.define dr (s.reg sr1 &&& s.reg sr2))

/-- AND, immediate operand (R105). -/
def execAndImm (dr sr1 : Reg) (imm5 : BitVec 5) (s : State) : Host.Outcome State Fault Refusal :=
  .next (s.define dr (s.reg sr1 &&& sext imm5))

/-- NOT (R106). -/
def execNot (dr sr : Reg) (s : State) : Host.Outcome State Fault Refusal :=
  .next (s.define dr (~~~ s.reg sr))

end Sys2Proof.Machine
end

