-- ==== Sys2Proof/Machine/Services.lean ====
section
/-! DEFINITION. The six TRAP services (spec 45_trap_services.md) and the instructions of their alias rows. A service
works on the state TRAP entry left; a meaning takes the state after fetch. -/

namespace Sys2Proof.Machine

/-- GETC (R171): one byte, zero-extended, no echo, no flag update. -/
def serviceGetc (s : State) : ServiceAnswer :=
  match inByte s.io with
  | .byte b io => .proceed ({ s with io := io }.setReg 0 (zextByte b))
  | .eos => .fail .inputEos s.io
  | .blocked => .wait s.io

/-- Write bytes and go on, or fail (R172, R173, R175). -/
def serviceWrite (bs : List Byte) (s : State) : ServiceAnswer :=
  match outBytes bs s.io with
  | .ok io => .proceed { s with io := io }
  | .fail io => .fail .outputFail io

/-- OUT (R172): the low byte of R0 (D10). -/
def serviceOut (s : State) : ServiceAnswer := serviceWrite [lowByte (s.reg 0)] s

/-- The bytes PUTS writes for a cell (R173). -/
def putsBytes (w : Word) : List Byte := [lowByte w]

/-- The bytes PUTSP writes for a cell (R175): the low byte, then the high byte if it is not zero (D13). -/
def putspBytes (w : Word) : List Byte :=
  if highByte w = 0x00#8 then [lowByte w] else [lowByte w, highByte w]

/-- The bytes of at most `fuel` cells from `a` up, wrapping modulo 2^16 (D12), up to the first zero word, and whether
there was one. -/
def scanString (bytes : Word → List Byte) (m : Memory) : Nat → Word → List Byte × Bool
  | 0, _ => ([], false)
  | fuel + 1, a =>
    if m.read a = 0x0000#16 then ([], true)
    else
      let later := scanString bytes m fuel (a + 1)
      (bytes (m.read a) ++ later.1, later.2)

/-- PUTS and PUTSP: write the string at R0. A string with no zero word in all 65536 cells brings the pointer back to
R0: the service writes one lap and is where it began (log entry 6). -/
def serviceString (bytes : Word → List Byte) (s : State) : ServiceAnswer :=
  let string := scanString bytes s.mem Config.memWords (s.reg 0)
  match outBytes string.1 s.io with
  | .ok io => if string.2 then .proceed { s with io := io } else .again io
  | .fail io => .fail .outputFail io

/-- PUTS (R173). -/
def servicePuts (s : State) : ServiceAnswer := serviceString putsBytes s

/-- IN's prompt (R174). An IN that was waiting has written it already (log entry 5). -/
def prompt (s : State) : OutAnswer := if s.waiting then .ok s.io else outBytes Config.inPrompt s.io

/-- IN's read (R174): one byte, zero-extended, with the flags set from it. -/
def readDefiningR0 (s : State) (io : Channels) : ServiceAnswer :=
  match inByte io with
  | .byte b io' => .proceed ({ s with io := io' }.define 0 (zextByte b))
  | .eos => .fail .inputEos io
  | .blocked => .wait io

/-- IN (R174). -/
def serviceIn (s : State) : ServiceAnswer :=
  match prompt s with
  | .ok io => readDefiningR0 s io
  | .fail io => .fail .outputFail io

/-- PUTSP (R175). -/
def servicePutsp (s : State) : ServiceAnswer := serviceString putspBytes s

/-- HALT (R176). -/
def serviceHalt (s : State) : ServiceAnswer :=
  match outBytes Config.haltNotice s.io with
  | .ok io => .halt { s with io := io }
  | .fail io => .fail .outputFail io

/-- GETC, TRAP 0x20 (R171). -/
def execGetc (s : State) : Host.Outcome State Fault Refusal := .next (runService serviceGetc s)

/-- OUT, TRAP 0x21 (R172). -/
def execOut (s : State) : Host.Outcome State Fault Refusal := .next (runService serviceOut s)

/-- PUTS, TRAP 0x22 (R173). -/
def execPuts (s : State) : Host.Outcome State Fault Refusal := .next (runService servicePuts s)

/-- IN, TRAP 0x23 (R174). -/
def execIn (s : State) : Host.Outcome State Fault Refusal := .next (runService serviceIn s)

/-- PUTSP, TRAP 0x24 (R175). -/
def execPutsp (s : State) : Host.Outcome State Fault Refusal := .next (runService servicePutsp s)

/-- HALT, TRAP 0x25 (R176). -/
def execHalt (s : State) : Host.Outcome State Fault Refusal := .next (runService serviceHalt s)

end Sys2Proof.Machine
end

