-- ==== Sys2Proof/Machine/System.lean ====
section
/-! DEFINITION. TRAP, RTI and RES (spec 44_system.md). `s` is the state after fetch. -/

namespace Sys2Proof.Machine

/-- The service a vector selects (R64, R160), none for the other 250 values (R161). -/
def serviceOf (vector : BitVec 8) : Option (State → ServiceAnswer) :=
  match vector.toNat with
  | 0x20 => some serviceGetc
  | 0x21 => some serviceOut
  | 0x22 => some servicePuts
  | 0x23 => some serviceIn
  | 0x24 => some servicePutsp
  | 0x25 => some serviceHalt
  | _ => none

/-- TRAP (R160, R161): an unknown vector is fatal before any write. -/
def execTrap (vector : BitVec 8) (s : State) : Host.Outcome State Fault Refusal :=
  match serviceOf vector with
  | some service => .next (runService service s)
  | none => .next (raiseFatal .unknownTrapVector s s.io)

/-- RTI (R162). -/
def execRti (s : State) : Host.Outcome State Fault Refusal := .next (raiseFatal .illegalOpcode s s.io)

/-- RES (R163). -/
def execRes (s : State) : Host.Outcome State Fault Refusal := .next (raiseFatal .illegalOpcode s s.io)

end Sys2Proof.Machine
end

