-- ==== Sys2Proof/Machine/Dispatch.lean ====
section
/-! DEFINITION. One arm per instruction (spec 30_encoding.md R63). The state is the one fetch left. -/

namespace Sys2Proof.Machine

/-- Execute (R63). -/
def exec (i : Instr) (s : State) : Host.Outcome State Fault Refusal :=
  match i with
  | .br nzp offset9 => Sys2Proof.Machine.execBr nzp offset9 s
  | .addReg dr sr1 _ sr2 => Sys2Proof.Machine.execAddReg dr sr1 sr2 s
  | .addImm dr sr1 imm5 => Sys2Proof.Machine.execAddImm dr sr1 imm5 s
  | .ld dr offset9 => Sys2Proof.Machine.execLd dr offset9 s
  | .st sr offset9 => Sys2Proof.Machine.execSt sr offset9 s
  | .jsrr _ base _ => Sys2Proof.Machine.execJsrr base s
  | .jsr offset11 => Sys2Proof.Machine.execJsr offset11 s
  | .andReg dr sr1 _ sr2 => Sys2Proof.Machine.execAndReg dr sr1 sr2 s
  | .andImm dr sr1 imm5 => Sys2Proof.Machine.execAndImm dr sr1 imm5 s
  | .ldr dr base offset6 => Sys2Proof.Machine.execLdr dr base offset6 s
  | .str sr base offset6 => Sys2Proof.Machine.execStr sr base offset6 s
  | .rti _ => Sys2Proof.Machine.execRti s
  | .not dr sr _ => Sys2Proof.Machine.execNot dr sr s
  | .ldi dr offset9 => Sys2Proof.Machine.execLdi dr offset9 s
  | .sti sr offset9 => Sys2Proof.Machine.execSti sr offset9 s
  | .jmp _ base _ => Sys2Proof.Machine.execJmp base s
  | .res _ => Sys2Proof.Machine.execRes s
  | .lea dr offset9 => Sys2Proof.Machine.execLea dr offset9 s
  | .trap _ vector => Sys2Proof.Machine.execTrap vector s
  | .ret _ _ => Sys2Proof.Machine.execRet s
  | .getc _ => Sys2Proof.Machine.execGetc s
  | .out _ => Sys2Proof.Machine.execOut s
  | .puts _ => Sys2Proof.Machine.execPuts s
  | .inp _ => Sys2Proof.Machine.execIn s
  | .putsp _ => Sys2Proof.Machine.execPutsp s
  | .halt _ => Sys2Proof.Machine.execHalt s

end Sys2Proof.Machine
end

