-- ==== Sys2Proof/Machine/Step.lean ====
section
/-! DEFINITION. One step (spec 30_encoding.md R60 to R63, 70_reset_and_hazards.md R234), and the host's placing of an
instruction where the next step fetches it. -/

namespace Sys2Proof.Machine

/-- One instruction cycle while RUNNING: fetch, decode, execute. In HALTED and FATAL no cycle runs (R60): the state
stays as it is (log entry 4). -/
def step (s : State) : Host.Outcome State Fault Refusal :=
  match s.runState with
  | .running => exec (decodeWord s.fetch.ir) s.fetch
  | .halted => .next s
  | .fatal _ => .next s

/-- The state with the table's instruction `w` in the cell PC names, so that the next step fetches and runs it from its
beginning: RUNNING, and not in the middle of a wait (log entry 11). -/
def State.withFetchWord (s : State) (nbits w : Nat) : State :=
  { s with mem := s.mem.write s.pc (BitVec.ofNat 16 (w % 2 ^ nbits)), runState := .running, waiting := false }

end Sys2Proof.Machine
end

