-- ==== Sys2Proof/Machine/HostMoves.lean ====
section
/-! DEFINITION. The host's moves (spec 00_scope.md R13, R17; 20_memory.md R57; 70_reset_and_hazards.md R230, R233).
None is a step of the core. -/

namespace Sys2Proof.Machine

/-- `MemWrite(origin + i, 1, values[i])` for each `i` (R57). -/
def Memory.writeBlock : Memory → Word → List Word → Memory
  | m, _, [] => m
  | m, a, v :: rest => Memory.writeBlock (m.write a v) (a + 1) rest

/-- `load_block(values, origin)` (R57): a load that would pass the end of memory writes nothing and is refused (D23). -/
def loadBlock (values : List Word) (origin : Word) (m : Memory) : Host.Outcome Memory Fault Refusal :=
  if origin.toNat + values.length ≤ Config.memWords then .next (m.writeBlock origin values)
  else .refused .loadPastEnd

/-- CPU construction over a memory and the channels of the new run (R230, R233): the reset of every slot and of
`run_state`; memory is not touched. -/
def construct (m : Memory) (io : Channels) : State := { State.reset with mem := m, io := io }

/-- The host supplies one more byte of INPUT (R178), which it can do until it ends the stream. -/
def supplyByte (b : Byte) (s : State) : State :=
  if s.io.inputEnded then s else { s with io := { s.io with input := s.io.input ++ [b] } }

/-- The host ends INPUT (R178). -/
def endInput (s : State) : State := { s with io := { s.io with inputEnded := true } }

end Sys2Proof.Machine
end

