-- ==== Sys2Proof/Safety.lean ====
section
/-! DEFINITION. How a run ends, the machine's invariant, the reachable states, and the frame predicates the claims use. -/

namespace Sys2Proof.Machine

/-! ### Runs -/

/-- `RunOutcome` (spec 60_exceptions.md R200). -/
inductive RunOutcome where
  | halted
  | fatal (report : FatalReport)
  deriving DecidableEq, Repr

/-- How the run ended, none while it has not (R237). -/
def State.outcome (s : State) : Option RunOutcome :=
  match s.runState with
  | .running => none
  | .halted => some .halted
  | .fatal report => some (.fatal report)

/-- The run from `s` returns with `o` (R200, R237). Not every run does. -/
def Returns (s : State) (o : RunOutcome) : Prop :=
  ∃ n t, Host.Core.run Sys2Proof.core n s = .next t ∧ t.outcome = some o

/-- A safe run: no number of steps brings it to FATAL. -/
def NeverFatal (s : State) : Prop :=
  ∀ n t, Host.Core.run Sys2Proof.core n s = .next t → ∀ report, t.runState ≠ .fatal report

/-! ### What kind of instruction it is -/

/-- The register an instruction defines, its DR field (00_scope.md glossary, R101). -/
def defined : Instr → Option Reg
  | .addReg dr _ _ _ => some dr
  | .addImm dr _ _ => some dr
  | .andReg dr _ _ _ => some dr
  | .andImm dr _ _ => some dr
  | .not dr _ _ => some dr
  | .ld dr _ => some dr
  | .ldi dr _ => some dr
  | .ldr dr _ _ => some dr
  | .lea dr _ => some dr
  | .br _ _ | .st _ _ | .jsrr _ _ _ | .jsr _ | .str _ _ _ | .rti _ | .sti _ _ | .jmp _ _ _ | .res _ | .trap _ _ => none
  | .ret _ _ | .getc _ | .out _ | .puts _ | .inp _ | .putsp _ | .halt _ => none

/-- The instruction can write the return address to R7 (R22). -/
def links : Instr → Bool
  | .jsrr _ _ _ | .jsr _ | .trap _ _ | .getc _ | .out _ | .puts _ | .inp _ | .putsp _ | .halt _ => true
  | .br _ _ | .addReg _ _ _ _ | .addImm _ _ _ | .ld _ _ | .st _ _ | .andReg _ _ _ _ | .andImm _ _ _ | .ldr _ _ _ => false
  | .str _ _ _ | .rti _ | .not _ _ _ | .ldi _ _ | .sti _ _ | .jmp _ _ _ | .res _ | .lea _ _ | .ret _ _ => false

/-- The instruction can write PC after the fetch increment (R27). -/
def transfersControl : Instr → Bool
  | .br _ _ | .jsrr _ _ _ | .jsr _ | .jmp _ _ _ | .ret _ _ => true
  | .addReg _ _ _ _ | .addImm _ _ _ | .ld _ _ | .st _ _ | .andReg _ _ _ _ | .andImm _ _ _ | .ldr _ _ _ | .str _ _ _ => false
  | .rti _ | .not _ _ _ | .ldi _ _ | .sti _ _ | .res _ | .lea _ _ | .trap _ _ => false
  | .getc _ | .out _ | .puts _ | .inp _ | .putsp _ | .halt _ => false

/-- The two instructions that can wait for input (R178). -/
def waits : Instr → Bool
  | .getc _ | .inp _ => true
  | .br _ _ | .addReg _ _ _ _ | .addImm _ _ _ | .ld _ _ | .st _ _ | .jsrr _ _ _ | .jsr _ | .andReg _ _ _ _ => false
  | .andImm _ _ _ | .ldr _ _ _ | .str _ _ _ | .rti _ | .not _ _ _ | .ldi _ _ | .sti _ _ | .jmp _ _ _ | .res _ => false
  | .lea _ _ | .trap _ _ | .ret _ _ | .out _ | .puts _ | .putsp _ | .halt _ => false

/-- The two instructions that write a string (R173, R175). -/
def writesString : Instr → Bool
  | .puts _ | .putsp _ => true
  | .br _ _ | .addReg _ _ _ _ | .addImm _ _ _ | .ld _ _ | .st _ _ | .jsrr _ _ _ | .jsr _ | .andReg _ _ _ _ => false
  | .andImm _ _ _ | .ldr _ _ _ | .str _ _ _ | .rti _ | .not _ _ _ | .ldi _ _ | .sti _ _ | .jmp _ _ _ | .res _ => false
  | .lea _ _ | .trap _ _ | .ret _ _ | .getc _ | .out _ | .inp _ | .halt _ => false

/-- A string of `k` non-zero words starts at `a`, and the word after them is zero (R173, R175). -/
def StringAt (m : Memory) (a : Word) (k : Nat) : Prop :=
  k < Config.memWords ∧ (∀ j < k, m.read (a + BitVec.ofNat 16 j) ≠ 0x0000#16) ∧ m.read (a + BitVec.ofNat 16 k) = 0x0000#16

/-- The bytes of the `k` words from `a` up, as PUTS writes them (R173). -/
def lowBytes (m : Memory) (a : Word) (k : Nat) : List Byte :=
  (List.range k).map (fun j => (m.read (a + BitVec.ofNat 16 j)).extractLsb' 0 8)

/-- The bytes of the `k` words from `a` up, as PUTSP writes them: low byte, then high byte if not zero (R175). -/
def packedBytes (m : Memory) (a : Word) (k : Nat) : List Byte :=
  (List.range k).flatMap (fun j =>
    let w := m.read (a + BitVec.ofNat 16 j)
    [w.extractLsb' 0 8] ++ (if w.extractLsb' 8 8 = 0x00#8 then [] else [w.extractLsb' 8 8]))

/-! ### The invariant -/

/-- COND holds exactly one of the three flag values (10_state.md R29). -/
abbrev CondLegal (c : Word) : Prop := c = Config.negative ∨ c = Config.zero ∨ c = Config.positive

/-- A wait is inside a GETC or an IN of a run that goes on (R178, R214). -/
abbrev WaitLegal (s : State) : Prop :=
  s.waiting = true → s.runState = .running ∧ waits (decodeWord (s.mem.read s.pc)) = true

/-- In FATAL, PC is the reported address and memory still holds the reported word there (R202, R203). -/
abbrev FatalLegal (s : State) : Prop :=
  match s.runState with
  | .fatal report => report.address = s.pc ∧ report.word = s.mem.read s.pc
  | _ => True

/-- The invariant that every step keeps. -/
def State.Inv (s : State) : Prop := s.mem.wf ∧ CondLegal s.cond ∧ WaitLegal s ∧ FatalLegal s

/-- The states the host and the core can reach (00_scope.md R17, 70_reset_and_hazards.md R233): construction over any
memory with any channels, steps, and the host's supply of input. -/
inductive Reachable : State → Prop where
  | construct (m : Memory) (io : Channels) (canonical : m.wf) : Reachable (construct m io)
  | step (s t : State) (from_ : Reachable s) (stepped : step s = .next t) : Reachable t
  | supply (b : Byte) (s : State) (from_ : Reachable s) : Reachable (supplyByte b s)
  | endInput (s : State) (from_ : Reachable s) : Reachable (endInput s)

/-! ### Frames -/

/-- Every register outside `rs` is unchanged. -/
def SameRegsBut (rs : List Reg) (s t : State) : Prop := ∀ r, r ∉ rs → t.reg r = s.reg r

/-- Every cell reads as before. -/
def SameMem (s t : State) : Prop := ∀ a : Word, t.mem.read a = s.mem.read a

/-- Every cell but the one at `addr` reads as before. -/
def SameMemBut (addr : Word) (s t : State) : Prop := ∀ a : Word, a ≠ addr → t.mem.read a = s.mem.read a

/-- `run_state`, the latches, the channels and the wait are unchanged. -/
def SameControl (s t : State) : Prop :=
  t.runState = s.runState ∧ t.ir = s.ir ∧ t.fetchPc = s.fetchPc ∧ t.io = s.io ∧ t.waiting = s.waiting

/-- `t` is `s` with `v` written to `dr` and COND set from it, and nothing else changed. -/
def Defines (dr : Reg) (v : Word) (s t : State) : Prop :=
  t.reg dr = v ∧ t.cond = flagOf v ∧ SameRegsBut [dr] s t ∧ t.pc = s.pc ∧ SameMem s t ∧ SameControl s t

/-- `t` is `s` with `v` in the cell at `addr`, and nothing else changed. -/
def Stores (addr v : Word) (s t : State) : Prop :=
  t.mem.read addr = v ∧ SameMemBut addr s t ∧ SameRegsBut [] s t ∧ t.cond = s.cond ∧ t.pc = s.pc ∧ SameControl s t

/-- `t` is `s` with PC at `target`, R7 as `link` says, and nothing else changed. -/
def Transfers (target : Word) (link : Option Word) (s t : State) : Prop :=
  t.pc = target ∧ (∀ v, link = some v → t.reg 7 = v) ∧ SameRegsBut (if link.isSome then [7] else []) s t ∧
    t.cond = s.cond ∧ SameMem s t ∧ SameControl s t

/-- The sink answers `ok` to `n` more bytes. -/
def SinkAccepts (io : Channels) (n : Nat) : Prop := ∀ room, io.sinkRoom = some room → n ≤ room

/-- What `n` accepted bytes leave of the sink. -/
def roomAfter (io : Channels) (n : Nat) : Option Nat := io.sinkRoom.map (· - n)

/-- `t` is the state after a TRAP from `s` whose service ended: R7 links, PC is not written, registers outside `rs`
and R7 are unchanged, memory and the latches are unchanged, `written` went out. -/
def Served (rs : List Reg) (written : List Byte) (s t : State) : Prop :=
  t.reg 7 = s.pc ∧ t.pc = s.pc ∧ SameRegsBut (7 :: rs) s t ∧ SameMem s t ∧ t.ir = s.ir ∧ t.fetchPc = s.fetchPc ∧
    t.io.output = s.io.output ++ written ∧ t.io.sinkRoom = roomAfter s.io written.length ∧
    t.io.inputEnded = s.io.inputEnded ∧ t.waiting = false

/-- The bytes the service of vector `v` writes from `s`, the state fetch left, when it runs to its end (R171 to R176). An IN
that waited has written its prompt already (log entry 5). -/
def ServiceWrites (v : BitVec 8) (s : State) (bytes : List Byte) : Prop :=
  (v = 0x20#8 ∧ bytes = []) ∨
  (v = 0x21#8 ∧ bytes = [(s.reg 0).extractLsb' 0 8]) ∨
  (v = 0x22#8 ∧ ∃ k, StringAt s.mem (s.reg 0) k ∧ bytes = lowBytes s.mem (s.reg 0) k) ∨
  (v = 0x23#8 ∧ bytes = if s.waiting then [] else Config.inPrompt) ∨
  (v = 0x24#8 ∧ ∃ k, StringAt s.mem (s.reg 0) k ∧ bytes = packedBytes s.mem (s.reg 0) k) ∨
  (v = 0x25#8 ∧ bytes = Config.haltNotice)

/-- `t` is `s`, a state before a fetch, after one lap of a string with no zero word: `lap` went out, the ten slots, memory
and the input are unchanged, and the run goes on (log entry 6). -/
def WritesOneLap (lap : List Byte) (s t : State) : Prop :=
  t.runState = .running ∧ (∀ i : Fin 10, t.slot i = s.slot i) ∧ SameMem s t ∧ t.io.output = s.io.output ++ lap ∧
    t.io.sinkRoom = roomAfter s.io lap.length ∧ t.io.input = s.io.input ∧ t.io.inputEnded = s.io.inputEnded ∧
    t.waiting = false

/-- `t` is the Fatal outcome of the instruction `s` had fetched (R202, R203), after `written` went out. -/
def FailsWith (why : Cause) (written : List Byte) (s t : State) : Prop :=
  t.runState = .fatal ⟨why, s.ir, s.fetchPc⟩ ∧ t.pc = s.fetchPc ∧ SameRegsBut [] s t ∧ t.cond = s.cond ∧ SameMem s t ∧
    t.io.output = s.io.output ++ written ∧ t.io.input = s.io.input ∧ t.io.inputEnded = s.io.inputEnded ∧
    t.ir = s.ir ∧ t.fetchPc = s.fetchPc ∧ t.waiting = false

end Sys2Proof.Machine
end

