-- ==== Sys2Proof/Certificates/Slice0/Obligations.lean ====
section
/-! DEFINITION. The statements for the provers. Each docstring names the rule of spec/ it formalises; where a clause rests
on a decision the spec marks as its own (D<n>) or on a choice of the model (log entry <n>), the docstring says so.
In statements about `exec` the state is the one fetch left, so `s.pc` is the post-increment PC (R25). -/

open Sys2Proof Sys2Proof.Machine

/-! ### Encoding -/

/-- Decoding the word of a well-formed instruction gives it back, for every instruction and every operand value
(30_encoding.md R66 to R75, R79; opcode numbers: the spec's decision D1; alias rows: log entry 12). -/
def Obligations.DecodeOfEncodeIsTheInstruction : Prop :=
  ∀ i : Instr, i.wellFormed = true → decodeWord (encode i) = i

/-- Every word decodes to a well-formed instruction whose encoding is that word (R79: decoding is total and loses no bit;
D1, log entry 12). -/
def Obligations.EncodeOfDecodeIsTheWord : Prop :=
  ∀ w : Word, (decodeWord w).wellFormed = true ∧ encode (decodeWord w) = w

/-- Words written out in 95_test_vectors.md decode as the spec says (sections 2.1 to 2.6; opcode numbers: D1;
that the .ret and service words decode to their alias rows' constructors: log entry 12). -/
def Obligations.SpecWordsDecodeAsListed : Prop :=
  decodeWord 0x0000#16 = .br 0b000#3 0#9 ∧ decodeWord 0x03FD#16 = .br 0b001#3 0x1FD#9 ∧
  decodeWord 0x1042#16 = .addReg 0 1 0#2 2 ∧ decodeWord 0x103F#16 = .addImm 0 0 0x1F#5 ∧
  decodeWord 0x2202#16 = .ld 1 2#9 ∧ decodeWord 0x31FE#16 = .st 0 0x1FE#9 ∧
  decodeWord 0x40C0#16 = .jsrr 0#2 3 0#6 ∧ decodeWord 0x4C00#16 = .jsr 0x400#11 ∧
  decodeWord 0x5642#16 = .andReg 3 1 0#2 2 ∧ decodeWord 0x5FFF#16 = .andImm 7 7 0x1F#5 ∧
  decodeWord 0x6060#16 = .ldr 0 1 0x20#6 ∧ decodeWord 0x7041#16 = .str 0 1 1#6 ∧
  decodeWord 0x8000#16 = .rti 0#12 ∧ decodeWord 0x903F#16 = .not 0 0 0x3F#6 ∧
  decodeWord 0xA001#16 = .ldi 0 1#9 ∧ decodeWord 0xB801#16 = .sti 4 1#9 ∧
  decodeWord 0xC080#16 = .jmp 0#3 2 0#6 ∧ decodeWord 0xC1C0#16 = .ret 0#3 0#6 ∧
  decodeWord 0xDFFF#16 = .res 0xFFF#12 ∧ decodeWord 0xE002#16 = .lea 0 2#9 ∧
  decodeWord 0xF026#16 = .trap 0#4 0x26#8 ∧ decodeWord 0xF020#16 = .getc 0#4 ∧
  decodeWord 0xF021#16 = .out 0#4 ∧ decodeWord 0xF022#16 = .puts 0#4 ∧
  decodeWord 0xF023#16 = .inp 0#4 ∧ decodeWord 0xF024#16 = .putsp 0#4 ∧ decodeWord 0xFF25#16 = .halt 0xF#4

/-- Every word matches exactly one of the table's 19 base rows, what it decodes to is based on that row, and a word that
matches one of the 7 alias rows decodes to that alias row's instruction (30_encoding.md, opening; R79; D1; that the decoder
answers the alias row is log entry 12). -/
def Obligations.EveryWordMatchesOneBaseRow : Prop :=
  ∀ w : Word, (baseRows.filter (fun r => w &&& r.2 = r.1)).length = 1 ∧
    ((decodeWord w).base.row.pattern, (decodeWord w).base.row.mask) ∈ baseRows ∧
    w &&& (decodeWord w).base.row.mask = (decodeWord w).base.row.pattern ∧
    w &&& (decodeWord w).row.mask = (decodeWord w).row.pattern ∧
    ∀ r ∈ aliasRows, w &&& r.2 = r.1 → ((decodeWord w).row.pattern, (decodeWord w).row.mask) = r

/-- Two words that agree in the bits the first one's format reads execute alike from every state (R77; ignoring the
other bits is the spec's decision D5). Opcode numbers: D1; rows of alias words: log entry 12. -/
def Obligations.UnusedBitsAreIgnored : Prop :=
  ∀ (w w' : Word) (s : State), w &&& (decodeWord w).row.used = w' &&& (decodeWord w).row.used →
    exec (decodeWord w) s = exec (decodeWord w') s

/-- RET executes as JMP R7, and each service instruction as the TRAP with its vector (R142; 30_encoding.md, opening;
constructors of their own: log entry 12). -/
def Obligations.AliasesExecuteAsTheirBase : Prop :=
  ∀ (i : Instr) (s : State), exec i s = exec i.base s

/-! ### The step -/

/-- A step of a running machine latches the word at PC, advances PC by one modulo 2^16, and executes the decoded word
(R61; executing it is R62 and R63). -/
def Obligations.StepRunsTheDecodedInstruction : Prop :=
  ∀ s : State, s.runState = .running →
    step s = exec (decodeWord (s.mem.read s.pc)) { s with fetchPc := s.pc, ir := s.mem.read s.pc, pc := s.pc + 1 }

/-- A well-formed instruction placed where the next step fetches is the one that step runs (log entry 11; the placing
stands for the host's load, R57; what is well-formed is log entry 12). -/
def Obligations.PlacedInstructionRunsNext : Prop :=
  ∀ (s : State) (i : Instr), i.wellFormed = true →
    step (s.withFetchWord 16 (encode i).toNat) = exec i (s.withFetchWord 16 (encode i).toNat).fetch ∧
      (s.withFetchWord 16 (encode i).toNat).fetch.ir = encode i ∧
      (s.withFetchWord 16 (encode i).toNat).gpr = s.gpr ∧ (s.withFetchWord 16 (encode i).toNat).pc = s.pc

/-- In HALTED and FATAL no cycle runs: nothing changes (R60, R32, R204; that both are terminal is the spec's decision
D19; a step that leaves the state is log entry 4). -/
def Obligations.EndedRunStaysAsItIs : Prop :=
  ∀ s : State, s.runState ≠ .running → step s = .next s

/-- No state and no word makes the machine stop without a next state (R42, R79, R201; a Fatal outcome, a wait and an
ended run are next states: log entries 3, 4 and 5). A string with no zero word, which the spec gives no end (R173, R175,
D12, R237), answers a next state by the lap of log entry 6. -/
def Obligations.EveryStepAnswersANextState : Prop :=
  ∀ s : State, ∃ t, step s = .next t

/-- The zero word changes nothing but PC and the fetch latches, while COND is legal or not (R83). That the zero word is
BR is the opcode number 0 of D1. -/
def Obligations.ZeroWordChangesOnlyPc : Prop :=
  ∀ s : State, s.runState = .running → s.mem.read s.pc = 0x0000#16 →
    step s = .next { s with pc := s.pc + 1, ir := 0x0000#16, fetchPc := s.pc }

/-! ### Reset, invariants, whole-machine rules -/

/-- CPU construction sets every slot and `run_state` and touches no memory; State.reset is construction over zero-filled
memory (R34, R41, R230; R1 to R7: D4, ZERO's number: D2, RUNNING: D19; the channels of State.reset: log entry 9). -/
def Obligations.ConstructionSetsTheResetValues : Prop :=
  (∀ (m : Memory) (io : Channels), (∀ r : Reg, (construct m io).reg r = 0x0000#16) ∧ (construct m io).pc = 0x3000#16 ∧
    (construct m io).cond = 0x0002#16 ∧ (construct m io).runState = .running ∧ (construct m io).mem = m ∧
    (construct m io).io = io) ∧
  State.reset = construct State.reset.mem State.reset.io ∧ ∀ a : Word, State.reset.mem.read a = 0x0000#16

/-- The state after reset meets the invariant: canonical memory (log entry 1), one flag in COND (R29), no wait (R178),
no report (R202). The number of ZERO is D2, RUNNING at construction D19. -/
def Obligations.ResetMeetsTheInvariant : Prop :=
  State.reset.Inv

/-- Every step, from every state that meets the invariant, keeps it (R29, R178, R202, R203; D8; log entries 1 and 5). -/
def Obligations.StepKeepsTheInvariant : Prop :=
  ∀ s t : State, s.Inv → step s = .next t → t.Inv

/-- Whatever the host loads, supplies and accepts, and after any number of steps, COND holds exactly one of the three
flag values, memory is canonical, and a wait or a report is where the rules say (R29, R178, R202; log entries 1 and 5).
That in FATAL PC is the reported address and memory still holds the word there is R203 and the spec's decision D8; INPUT
as a list is log entry 8. -/
def Obligations.ReachableStatesMeetTheInvariant : Prop :=
  ∀ s : State, Reachable s → s.Inv

/-- The machine waits only inside a GETC or an IN, for want of input, with registers, COND, PC and memory as before, and
the run goes on (R178, R214; the waiting step is log entry 5). The constructors of GETC and IN: log entry 12; INPUT: log
entry 8. -/
def Obligations.OnlyGetcAndInWait : Prop :=
  ∀ s t : State, s.Inv → s.runState = .running → step s = .next t → t.waiting = true →
    waits (decodeWord (s.mem.read s.pc)) = true ∧ s.io.input = [] ∧ s.io.inputEnded = false ∧ t.runState = .running ∧
      (∀ i : Fin 10, t.slot i = s.slot i) ∧ SameMem s t ∧ t.io.input = []

/-- A byte supplied by the host lifts a wait: the next step reads it into R0 and goes on, writing nothing more; the end
of the stream lifts it into IO_FAILURE (R178, R177, R171, R174, R160; the wait is log entry 5, the zero extension D11,
PC and R7 after the TRAP D7, the slots after the end of the stream R203 and D8). That an IN writes nothing after its
prompt (no echo) is the spec's decision D14; the host's moves are log entry 8. -/
def Obligations.HostLiftsTheWait : Prop :=
  ∀ (s t : State) (b : Byte), s.Inv → s.runState = .running → step s = .next t → t.waiting = true →
    (∃ u, step (supplyByte b t) = .next u ∧ u.reg 0 = b.setWidth 16 ∧ u.reg 7 = s.pc + 1 ∧ u.pc = s.pc + 1 ∧
      u.runState = .running ∧ u.waiting = false ∧ u.io.output = t.io.output ∧ u.io.input = []) ∧
    (∃ u, step (endInput t) = .next u ∧ u.runState = .fatal ⟨.ioFailure .inputEos, s.mem.read s.pc, s.pc⟩ ∧
      (∀ i : Fin 10, u.slot i = s.slot i) ∧ u.waiting = false ∧ u.io.output = t.io.output)

/-- RUNNING turns into HALTED only by the HALT service (R32, R200). The constructor of HALT: log entry 12. -/
def Obligations.HaltedComesOnlyFromHalt : Prop :=
  ∀ s t : State, s.runState = .running → step s = .next t → t.runState = .halted →
    ∃ u, decodeWord (s.mem.read s.pc) = .halt u

/-- Which step ends in FATAL, and with which cause: opcodes 0x8 and 0xD always, opcode 0xF with an unknown vector
always, and otherwise only a service whose input ended or whose sink failed (R201, R205; numbers: D1, causes: D9). FATAL
as a next state: log entry 3; the constructors of GETC and IN: log entry 12; the channels: log entries 7 and 8. -/
def Obligations.FatalCausesAreExactlyThese : Prop :=
  ∀ s t : State, s.runState = .running → step s = .next t →
    ((∃ r, t.runState = .fatal r ∧ r.cause = .illegalOpcode) ↔
      (field (s.mem.read s.pc) 12 4 = 0x8#4 ∨ field (s.mem.read s.pc) 12 4 = 0xD#4)) ∧
    ((∃ r, t.runState = .fatal r ∧ r.cause = .unknownTrapVector) ↔
      (field (s.mem.read s.pc) 12 4 = 0xF#4 ∧
        ((field (s.mem.read s.pc) 0 8).toNat < 0x20 ∨ 0x25 < (field (s.mem.read s.pc) 0 8).toNat))) ∧
    ((∃ r, t.runState = .fatal r ∧ r.cause = .ioFailure .inputEos) →
      waits (decodeWord (s.mem.read s.pc)) = true ∧ s.io.input = [] ∧ s.io.inputEnded = true) ∧
    ((∃ r, t.runState = .fatal r ∧ r.cause = .ioFailure .outputFail) →
      field (s.mem.read s.pc) 12 4 = 0xF#4 ∧ 0x21 ≤ (field (s.mem.read s.pc) 0 8).toNat ∧
        (field (s.mem.read s.pc) 0 8).toNat ≤ 0x25 ∧ t.io.sinkRoom = some 0)

/-- A Fatal outcome leaves the ten slots and memory as before the fetch, records the offending word and its address, and
takes back no byte the sink accepted (R202, R203; the "before" side is the spec's decision D8). FATAL as a next state:
log entry 3. -/
def Obligations.FatalLeavesTheStateBeforeTheFetch : Prop :=
  ∀ (s t : State) (r : FatalReport), s.runState = .running → step s = .next t → t.runState = .fatal r →
    (∀ i : Fin 10, t.slot i = s.slot i) ∧ SameMem s t ∧ r.word = s.mem.read s.pc ∧ r.address = s.pc ∧
      s.io.output <+: t.io.output ∧ t.io.input = s.io.input

/-- A cell changes only by ST, STI or STR, and it is the one at the store's effective address (R43, R48, R125 to R127,
R170: no service writes memory). That no cell is a device is the spec's decision D20. -/
def Obligations.MemoryChangesOnlyByStores : Prop :=
  ∀ (s t : State) (a : Word), s.runState = .running → step s = .next t → t.mem.read a ≠ s.mem.read a →
    (∃ sr off, decodeWord (s.mem.read s.pc) = .st sr off ∧ a = s.pc + 1 + off.signExtend 16 ∧ t.mem.read a = s.reg sr) ∨
    (∃ sr off, decodeWord (s.mem.read s.pc) = .sti sr off ∧ a = s.mem.read (s.pc + 1 + off.signExtend 16) ∧
      t.mem.read a = s.reg sr) ∨
    (∃ sr base off, decodeWord (s.mem.read s.pc) = .str sr base off ∧ a = s.reg base + off.signExtend 16 ∧
      t.mem.read a = s.reg sr)

/-- A general register changes only as the DR of a defining instruction, as R7 with the return address by JSR, JSRR or a
TRAP, or as R0 by GETC or IN; so R1 to R6 change only through a DR field (R22, R128; R7 after a TRAP: R160, D7). The
constructors of the services: log entry 12. -/
def Obligations.RegistersChangeOnlyAsTheRulesSay : Prop :=
  ∀ (s t : State) (r : Reg), s.runState = .running → step s = .next t → t.reg r ≠ s.reg r →
    defined (decodeWord (s.mem.read s.pc)) = some r ∨
    (r = 7 ∧ links (decodeWord (s.mem.read s.pc)) = true ∧ t.reg r = s.pc + 1) ∨
    (r = 0 ∧ waits (decodeWord (s.mem.read s.pc)) = true)

/-- `setcc` is applied to the value written by ADD, AND, NOT, LD, LDI, LDR, LEA and by an IN that completes, and by
nothing else (R101). An IN that fails or waits is back at its own address with COND as before: R203 and the spec's
decision D8 for the failure, log entry 5 for the wait. The constructor of IN: log entry 12. -/
def Obligations.CondIsWrittenByExactlyTheseInstructions : Prop :=
  ∀ s t : State, s.runState = .running → step s = .next t →
    (∀ dr, defined (decodeWord (s.mem.read s.pc)) = some dr → t.cond = flagOf (t.reg dr)) ∧
    ((∃ u, decodeWord (s.mem.read s.pc) = .inp u) →
      (t.pc = s.pc + 1 ∧ t.cond = flagOf (t.reg 0)) ∨ (t.pc = s.pc ∧ t.cond = s.cond)) ∧
    (defined (decodeWord (s.mem.read s.pc)) = none → (∀ u, decodeWord (s.mem.read s.pc) ≠ .inp u) → t.cond = s.cond)

/-- After the fetch increment PC is written only by BR, JMP, RET, JSR and JSRR; an instruction that fails, waits or
writes a string without end is back at its own address (R26, R27; D7, D8; log entries 5 and 6). The constructors of PUTS
and PUTSP: log entry 12. -/
def Obligations.PcIsWrittenOnlyByControlTransfer : Prop :=
  ∀ s t : State, s.runState = .running → step s = .next t → transfersControl (decodeWord (s.mem.read s.pc)) = false →
    t.pc = s.pc + 1 ∨
    (t.pc = s.pc ∧ ((∃ r, t.runState = .fatal r) ∨ t.waiting = true ∨ writesString (decodeWord (s.mem.read s.pc)) = true))

/-- No byte written is ever taken back, and only GETC and IN read INPUT, at most one byte a step, oldest first (R13,
R170, R177, R203); the byte goes to R0 zero-extended (R171, R174, the spec's decision D11). The channels: log entries 7
and 8; the constructors of GETC and IN: log entry 12. -/
def Obligations.ChannelsOnlyMoveForward : Prop :=
  ∀ s t : State, step s = .next t → s.io.output <+: t.io.output ∧ t.io.inputEnded = s.io.inputEnded ∧
    (t.io.input = s.io.input ∨
      (waits (decodeWord (s.mem.read s.pc)) = true ∧ ∃ b, s.io.input = b :: t.io.input ∧ t.reg 0 = b.setWidth 16))

/-! ### Memory -/

/-- A write overwrites its cell and no other cell changes, whatever the memory (R42, R43). -/
def Obligations.WriteChangesExactlyOneCell : Prop :=
  ∀ (m : Memory) (addr v : Word), (m.write addr v).read addr = v ∧ ∀ a : Word, a ≠ addr → (m.write addr v).read a = m.read a

/-- Canonical memories that read alike at every address are the same list (log entry 1). -/
def Obligations.CanonicalMemoriesThatReadAlikeAreEqual : Prop :=
  ∀ m n : Memory, m.wf → n.wf → (∀ a : Word, m.read a = n.read a) → m = n

/-- `load_block` writes its values from `origin` up and no other cell, when they fit below 65536; otherwise it writes
nothing and is refused (R57; the refusal is the spec's decision D23). -/
def Obligations.LoadBlockWritesTheImage : Prop :=
  ∀ (values : List Word) (origin : Word) (m : Memory),
    (origin.toNat + values.length ≤ 65536 → ∃ m', loadBlock values origin m = .next m' ∧
      (∀ (i : Nat) (h : i < values.length), m'.read (origin + BitVec.ofNat 16 i) = values[i]) ∧
      ∀ a : Word, (a.toNat < origin.toNat ∨ origin.toNat + values.length ≤ a.toNat) → m'.read a = m.read a) ∧
    (65536 < origin.toNat + values.length → loadBlock values origin m = .refused .loadPastEnd)

/-- A word that ST, STI or STR stores into the next instruction's cell is the word the very next step fetches and runs
(R55; coherence is the spec's decision D18). -/
def Obligations.StoredWordIsFetchedNext : Prop :=
  ∀ (s : State) (sr : Reg), s.runState = .running →
    ((∃ off, decodeWord (s.mem.read s.pc) = .st sr off ∧ s.pc + 1 + off.signExtend 16 = s.pc + 1) ∨
      (∃ off, decodeWord (s.mem.read s.pc) = .sti sr off ∧ s.mem.read (s.pc + 1 + off.signExtend 16) = s.pc + 1) ∨
      (∃ base off, decodeWord (s.mem.read s.pc) = .str sr base off ∧ s.reg base + off.signExtend 16 = s.pc + 1)) →
    ∃ t, step s = .next t ∧ t.pc = s.pc + 1 ∧ t.mem.read t.pc = s.reg sr ∧
      step t = exec (decodeWord (s.reg sr)) { t with fetchPc := t.pc, ir := s.reg sr, pc := t.pc + 1 }

/-! ### Sign extension and flags -/

/-- `sext_N(f)` copies the field and replicates its top bit, and so equals the field read as an N-bit two's-complement
number; `zext_16` puts zero bits above (R9). -/
def Obligations.SignExtensionReplicatesTheTopBit : Prop :=
  (∀ (n : Nat) (f : BitVec n), 1 ≤ n → n ≤ 16 →
    (∀ i < 16, (sext f).getLsbD i = if i < n then f.getLsbD i else f.getLsbD (n - 1)) ∧ (sext f).toInt = f.toInt) ∧
  (∀ b : Byte, ∀ i < 16, (zextByte b).getLsbD i = (decide (i < 8) && b.getLsbD i))

/-- `setcc(v)` sets COND to ZERO, NEGATIVE or POSITIVE as `v` read in two's complement is zero, negative or positive, and
changes nothing else (R100, R28; the numbers of ZERO and POSITIVE are the spec's decision D2). -/
def Obligations.FlagIsTheSignOfTheValue : Prop :=
  ∀ (s : State) (v : Word),
    (v.toInt = 0 → s.setcc v = { s with cond := 0x0002#16 }) ∧
    (v.toInt < 0 → s.setcc v = { s with cond := 0x0004#16 }) ∧
    (0 < v.toInt → s.setcc v = { s with cond := 0x0001#16 })

/-! ### ADD, AND, NOT -/

/-- ADD, register operand (R102): encoding, result, flags, frame. -/
def Obligations.AddRegister : Prop :=
  (∀ w : Word, field w 12 4 = 0b0001#4 → field w 5 1 = 0#1 →
    decodeWord w = .addReg (regField w 9) (regField w 6) (field w 3 2) (regField w 0)) ∧
  ∀ (dr sr1 sr2 : Reg) (u : BitVec 2) (s : State), ∃ t, exec (.addReg dr sr1 u sr2) s = .next t ∧
    Defines dr (s.reg sr1 + s.reg sr2) s t

/-- ADD, immediate operand (R103): encoding, result, flags, frame. -/
def Obligations.AddImmediate : Prop :=
  (∀ w : Word, field w 12 4 = 0b0001#4 → field w 5 1 = 1#1 →
    decodeWord w = .addImm (regField w 9) (regField w 6) (field w 0 5)) ∧
  ∀ (dr sr1 : Reg) (imm5 : BitVec 5) (s : State), ∃ t, exec (.addImm dr sr1 imm5) s = .next t ∧
    Defines dr (s.reg sr1 + imm5.signExtend 16) s t

/-- AND, register operand (R104): encoding, result, flags, frame. -/
def Obligations.AndRegister : Prop :=
  (∀ w : Word, field w 12 4 = 0b0101#4 → field w 5 1 = 0#1 →
    decodeWord w = .andReg (regField w 9) (regField w 6) (field w 3 2) (regField w 0)) ∧
  ∀ (dr sr1 sr2 : Reg) (u : BitVec 2) (s : State), ∃ t, exec (.andReg dr sr1 u sr2) s = .next t ∧
    Defines dr (s.reg sr1 &&& s.reg sr2) s t

/-- AND, immediate operand (R105): encoding, result, flags, frame. -/
def Obligations.AndImmediate : Prop :=
  (∀ w : Word, field w 12 4 = 0b0101#4 → field w 5 1 = 1#1 →
    decodeWord w = .andImm (regField w 9) (regField w 6) (field w 0 5)) ∧
  ∀ (dr sr1 : Reg) (imm5 : BitVec 5) (s : State), ∃ t, exec (.andImm dr sr1 imm5) s = .next t ∧
    Defines dr (s.reg sr1 &&& imm5.signExtend 16) s t

/-- NOT (R106): encoding, result, flags, frame. -/
def Obligations.NotComplements : Prop :=
  (∀ w : Word, field w 12 4 = 0b1001#4 → decodeWord w = .not (regField w 9) (regField w 6) (field w 0 6)) ∧
  ∀ (dr sr : Reg) (u : BitVec 6) (s : State), ∃ t, exec (.not dr sr u) s = .next t ∧ Defines dr (~~~ s.reg sr) s t

/-! ### Loads, LEA, stores -/

/-- LD (R121): encoding, result, flags, frame. -/
def Obligations.LoadPcRelative : Prop :=
  (∀ w : Word, field w 12 4 = 0b0010#4 → decodeWord w = .ld (regField w 9) (field w 0 9)) ∧
  ∀ (dr : Reg) (off : BitVec 9) (s : State), ∃ t, exec (.ld dr off) s = .next t ∧
    Defines dr (s.mem.read (s.pc + off.signExtend 16)) s t

/-- LDI (R122): encoding, result (the target's value, not the pointer cell's), flags, frame. -/
def Obligations.LoadIndirect : Prop :=
  (∀ w : Word, field w 12 4 = 0b1010#4 → decodeWord w = .ldi (regField w 9) (field w 0 9)) ∧
  ∀ (dr : Reg) (off : BitVec 9) (s : State), ∃ t, exec (.ldi dr off) s = .next t ∧
    Defines dr (s.mem.read (s.mem.read (s.pc + off.signExtend 16))) s t

/-- LDR (R123): encoding, result, flags, frame. -/
def Obligations.LoadBaseOffset : Prop :=
  (∀ w : Word, field w 12 4 = 0b0110#4 → decodeWord w = .ldr (regField w 9) (regField w 6) (field w 0 6)) ∧
  ∀ (dr base : Reg) (off : BitVec 6) (s : State), ∃ t, exec (.ldr dr base off) s = .next t ∧
    Defines dr (s.mem.read (s.reg base + off.signExtend 16)) s t

/-- LEA (R124): encoding, result, flags, frame; no memory access. -/
def Obligations.LoadEffectiveAddress : Prop :=
  (∀ w : Word, field w 12 4 = 0b1110#4 → decodeWord w = .lea (regField w 9) (field w 0 9)) ∧
  ∀ (dr : Reg) (off : BitVec 9) (s : State), ∃ t, exec (.lea dr off) s = .next t ∧
    Defines dr (s.pc + off.signExtend 16) s t

/-- ST (R125): encoding, the cell written, frame. -/
def Obligations.StorePcRelative : Prop :=
  (∀ w : Word, field w 12 4 = 0b0011#4 → decodeWord w = .st (regField w 9) (field w 0 9)) ∧
  ∀ (sr : Reg) (off : BitVec 9) (s : State), ∃ t, exec (.st sr off) s = .next t ∧
    Stores (s.pc + off.signExtend 16) (s.reg sr) s t

/-- STI (R126): encoding, the cell written (the pointer is read before the write), frame. -/
def Obligations.StoreIndirect : Prop :=
  (∀ w : Word, field w 12 4 = 0b1011#4 → decodeWord w = .sti (regField w 9) (field w 0 9)) ∧
  ∀ (sr : Reg) (off : BitVec 9) (s : State), ∃ t, exec (.sti sr off) s = .next t ∧
    Stores (s.mem.read (s.pc + off.signExtend 16)) (s.reg sr) s t

/-- STR (R127): encoding, the cell written, frame. -/
def Obligations.StoreBaseOffset : Prop :=
  (∀ w : Word, field w 12 4 = 0b0111#4 → decodeWord w = .str (regField w 9) (regField w 6) (field w 0 6)) ∧
  ∀ (sr base : Reg) (off : BitVec 6) (s : State), ∃ t, exec (.str sr base off) s = .next t ∧
    Stores (s.reg base + off.signExtend 16) (s.reg sr) s t

/-! ### Control transfer -/

/-- BR (R140): the target when mask and COND meet, the next instruction otherwise; with a legal COND the mask bits n, z, p
test NEGATIVE, ZERO, POSITIVE, so 000 never branches and 111 always does (ZERO's and POSITIVE's bits: D2). -/
def Obligations.BranchTestsTheFlags : Prop :=
  (∀ w : Word, field w 12 4 = 0b0000#4 → decodeWord w = .br (field w 9 3) (field w 0 9)) ∧
  ∀ (nzp : BitVec 3) (off : BitVec 9) (s : State), ∃ t, exec (.br nzp off) s = .next t ∧
    Transfers (if nzp.setWidth 16 &&& s.cond = 0#16 then s.pc else s.pc + off.signExtend 16) none s t ∧
    (CondLegal s.cond → (nzp.setWidth 16 &&& s.cond ≠ 0#16 ↔
      (s.cond = 0x0004#16 ∧ nzp.getLsbD 2 = true) ∨ (s.cond = 0x0002#16 ∧ nzp.getLsbD 1 = true) ∨
        (s.cond = 0x0001#16 ∧ nzp.getLsbD 0 = true)))

/-- JMP goes to its base register, and RET to R7 (R141, R142). That the decoder answers RET for a JMP word whose base is R7
is log entry 12 (the most specific row). -/
def Obligations.JumpThroughARegister : Prop :=
  (∀ w : Word, field w 12 4 = 0b1100#4 → decodeWord w =
    if field w 6 3 = 0b111#3 then .ret (field w 9 3) (field w 0 6) else .jmp (field w 9 3) (regField w 6) (field w 0 6)) ∧
  ∀ (hi : BitVec 3) (base : Reg) (lo : BitVec 6) (s : State),
    (∃ t, exec (.jmp hi base lo) s = .next t ∧ Transfers (s.reg base) none s t) ∧
    (∃ t, exec (.ret hi lo) s = .next t ∧ Transfers (s.reg 7) none s t)

/-- JSR (R143): encoding, return address in R7, target, frame. -/
def Obligations.SubroutineCallPcRelative : Prop :=
  (∀ w : Word, field w 12 4 = 0b0100#4 → field w 11 1 = 1#1 → decodeWord w = .jsr (field w 0 11)) ∧
  ∀ (off : BitVec 11) (s : State), ∃ t, exec (.jsr off) s = .next t ∧
    Transfers (s.pc + off.signExtend 16) (some s.pc) s t

/-- JSRR (R144): encoding, return address in R7, target, frame. With BaseR = R7 the target is the return address, since
R7 is written first (the spec's decision D6). -/
def Obligations.SubroutineCallThroughARegister : Prop :=
  (∀ w : Word, field w 12 4 = 0b0100#4 → field w 11 1 = 0#1 →
    decodeWord w = .jsrr (field w 9 2) (regField w 6) (field w 0 6)) ∧
  ∀ (hi : BitVec 2) (base : Reg) (lo : BitVec 6) (s : State), ∃ t, exec (.jsrr hi base lo) s = .next t ∧
    Transfers (if base = 7 then s.pc else s.reg base) (some s.pc) s t

/-! ### RTI, RES, TRAP -/

/-- RTI and RES, whatever their low bits, end the run with ILLEGAL_OPCODE, and nothing else changes (R162, R163, R203;
the state before the fetch is the spec's decision D8, the opcode numbers are D1; that this is a next state is log entry
3). Cause names: D9. -/
def Obligations.RtiAndResAreFatal : Prop :=
  (∀ w : Word, field w 12 4 = 0b1000#4 → decodeWord w = .rti (field w 0 12)) ∧
  (∀ w : Word, field w 12 4 = 0b1101#4 → decodeWord w = .res (field w 0 12)) ∧
  ∀ (u : BitVec 12) (s : State),
    (∃ t, exec (.rti u) s = .next t ∧ FailsWith .illegalOpcode [] s t ∧ t.io = s.io) ∧
    (∃ t, exec (.res u) s = .next t ∧ FailsWith .illegalOpcode [] s t ∧ t.io = s.io)

/-- A TRAP whose vector is not 0x20 to 0x25 ends the run with UNKNOWN_TRAP_VECTOR; R7 is not written and no service runs
(R161, R203; the state before the fetch is the spec's decision D8). Cause names: D9; FATAL as a next state: log entry 3. -/
def Obligations.UnknownTrapVectorIsFatal : Prop :=
  ∀ (u : BitVec 4) (v : BitVec 8) (s : State), (v.toNat < 0x20 ∨ 0x25 < v.toNat) →
    ∃ t, exec (.trap u v) s = .next t ∧ FailsWith .unknownTrapVector [] s t ∧ t.io = s.io

/-- A TRAP with a recognised vector hands over to the service of that vector, on every path. When the sink accepts what
the service writes, an input byte is there for GETC and IN, and the string of PUTS and PUTSP has an end, it writes the
return address to R7, writes the service's bytes, reads one byte to R0 for GETC and IN, sets COND for IN only, and goes
on at the next instruction, or halts for 0x25 (R160, R170, R207, R171 to R176; PC and R7: D7; bytes: D10 to D15; IN that
waited: log entry 5). A word with such a vector decodes to the alias row's constructor (log entry 12), which executes as
this. The channels: log entries 7 and 8; the prompt and the notice: log entry 10. -/
def Obligations.TrapLinksAndRunsItsService : Prop :=
  (∀ (u : BitVec 4) (v : BitVec 8) (s : State) (service : State → ServiceAnswer), serviceOf v = some service →
    exec (.trap u v) s = .next (runService service s)) ∧
  ∀ (u : BitVec 4) (v : BitVec 8) (s : State) (bytes : List Byte), ServiceWrites v s bytes → SinkAccepts s.io bytes.length →
    (v = 0x20#8 ∨ v = 0x23#8 → s.io.input ≠ []) →
    ∃ t, exec (.trap u v) s = .next t ∧ Served (if v = 0x20#8 ∨ v = 0x23#8 then [0] else []) bytes s t ∧
      (if v = 0x20#8 ∨ v = 0x23#8 then ∃ b, s.io.input = b :: t.io.input ∧ t.reg 0 = b.setWidth 16
        else t.io.input = s.io.input) ∧
      t.cond = (if v = 0x23#8 then flagOf (t.reg 0) else s.cond) ∧
      t.runState = (if v = 0x25#8 then .halted else s.runState)

/-! ### The services -/

/-- GETC (R171): the first input byte, zero-extended, in R0; no flag, no output (zero extension: D11; R7: D7). The
channels: log entries 7 and 8. -/
def Obligations.GetcReadsOneByte : Prop :=
  ∀ (u : BitVec 4) (s : State) (b : Byte) (rest : List Byte), s.io.input = b :: rest →
    ∃ t, exec (.getc u) s = .next t ∧ Served [0] [] s t ∧ t.reg 0 = b.setWidth 16 ∧ t.io.input = rest ∧
      t.cond = s.cond ∧ t.runState = s.runState

/-- OUT (R172): the low byte of R0 goes out, when the sink accepts it (the low byte: D10; R7: D7). The sink: log entry
7. -/
def Obligations.OutWritesTheLowByte : Prop :=
  ∀ (u : BitVec 4) (s : State), SinkAccepts s.io 1 →
    ∃ t, exec (.out u) s = .next t ∧ Served [] [(s.reg 0).extractLsb' 0 8] s t ∧ t.io.input = s.io.input ∧
      t.cond = s.cond ∧ t.runState = s.runState

/-- PUTS (R173): the low bytes of the words from R0 up to the first zero word, excluded, when the sink accepts them; the
address wraps (D10, D12; R7: D7). The sink: log entry 7. -/
def Obligations.PutsWritesTheString : Prop :=
  ∀ (u : BitVec 4) (s : State) (k : Nat), StringAt s.mem (s.reg 0) k → SinkAccepts s.io k →
    ∃ t, exec (.puts u) s = .next t ∧ Served [] (lowBytes s.mem (s.reg 0) k) s t ∧ t.io.input = s.io.input ∧
      t.cond = s.cond ∧ t.runState = s.runState

/-- PUTSP (R175): the low byte, then the high byte if not zero, of each word from R0 up to the first zero word, when the
sink accepts them (D12, D13; R7: D7). The sink: log entry 7. -/
def Obligations.PutspWritesThePackedString : Prop :=
  ∀ (u : BitVec 4) (s : State) (k : Nat), StringAt s.mem (s.reg 0) k →
    SinkAccepts s.io (packedBytes s.mem (s.reg 0) k).length →
    ∃ t, exec (.putsp u) s = .next t ∧ Served [] (packedBytes s.mem (s.reg 0) k) s t ∧ t.io.input = s.io.input ∧
      t.cond = s.cond ∧ t.runState = s.runState

/-- IN (R174): the prompt, unless it waited and so had written it (log entry 5), then one byte, zero-extended, in R0,
with COND set from it and never NEGATIVE (R100, R28; the numbers of ZERO and POSITIVE: D2; no echo and the prompt's
bytes: D14; zero extension: D11; R7: D7). The channels: log entries 7 and 8; the prompt as a constant: log entry 10. -/
def Obligations.InPromptsAndReadsOneByte : Prop :=
  ∀ (u : BitVec 4) (s : State) (b : Byte) (rest : List Byte), s.io.input = b :: rest →
    (s.waiting = false → SinkAccepts s.io Config.inPrompt.length) →
    ∃ t, exec (.inp u) s = .next t ∧ Served [0] (if s.waiting then [] else Config.inPrompt) s t ∧
      t.reg 0 = b.setWidth 16 ∧ t.io.input = rest ∧
      t.cond = (if b = 0x00#8 then 0x0002#16 else 0x0001#16) ∧ t.runState = s.runState

/-- HALT (R176): the notice goes out, when the sink accepts it, and the run is HALTED, with R7 and PC at the address
after the HALT word (the notice's bytes: D15; R7: D7). The sink: log entry 7; the notice as a constant: log entry 10. -/
def Obligations.HaltWritesTheNoticeAndEndsTheRun : Prop :=
  ∀ (u : BitVec 4) (s : State), SinkAccepts s.io Config.haltNotice.length →
    ∃ t, exec (.halt u) s = .next t ∧ Served [] Config.haltNotice s t ∧ t.io.input = s.io.input ∧ t.cond = s.cond ∧
      t.runState = .halted

/-- An input or output failure is fatal, with the bytes accepted before it kept (R177, R203): the end of the stream in
GETC and IN, and a `fail` of the sink in OUT, PUTS, IN, PUTSP and HALT. The bytes written before it are those of R173,
R174, R175 and R176 (low bytes D10, wrapping and strings with no zero word D12, packed bytes D13). The state before the
fetch is the spec's decision D8; that an IN that waited does not write its prompt again is log entry 5. Cause names: D9;
the prompt's and the notice's bytes: D14, D15, log entry 10; FATAL as a next state: log entry 3; the channels: log
entries 7 and 8. -/
def Obligations.IoFailureIsFatal : Prop :=
  ∀ (u : BitVec 4) (s : State),
    (s.io.input = [] → s.io.inputEnded = true →
      (∃ t, exec (.getc u) s = .next t ∧ FailsWith (.ioFailure .inputEos) [] s t) ∧
      (s.waiting = true → ∃ t, exec (.inp u) s = .next t ∧ FailsWith (.ioFailure .inputEos) [] s t) ∧
      (s.waiting = false → SinkAccepts s.io Config.inPrompt.length →
        ∃ t, exec (.inp u) s = .next t ∧ FailsWith (.ioFailure .inputEos) Config.inPrompt s t)) ∧
    (∀ n, s.io.sinkRoom = some n →
      (n = 0 → ∃ t, exec (.out u) s = .next t ∧ FailsWith (.ioFailure .outputFail) [] s t) ∧
      (∀ k, StringAt s.mem (s.reg 0) k → n < k → ∃ t, exec (.puts u) s = .next t ∧
        FailsWith (.ioFailure .outputFail) ((lowBytes s.mem (s.reg 0) k).take n) s t) ∧
      (∀ k, StringAt s.mem (s.reg 0) k → n < (packedBytes s.mem (s.reg 0) k).length → ∃ t, exec (.putsp u) s = .next t ∧
        FailsWith (.ioFailure .outputFail) ((packedBytes s.mem (s.reg 0) k).take n) s t) ∧
      ((∀ a : Word, s.mem.read a ≠ 0x0000#16) →
        (n < (lowBytes s.mem (s.reg 0) Config.memWords).length → ∃ t, exec (.puts u) s = .next t ∧
          FailsWith (.ioFailure .outputFail) ((lowBytes s.mem (s.reg 0) Config.memWords).take n) s t) ∧
        (n < (packedBytes s.mem (s.reg 0) Config.memWords).length → ∃ t, exec (.putsp u) s = .next t ∧
          FailsWith (.ioFailure .outputFail) ((packedBytes s.mem (s.reg 0) Config.memWords).take n) s t)) ∧
      (s.waiting = false → ∃ t, exec (.inp u) s = .next t ∧
        ((Config.inPrompt.length ≤ n ∧ t.io.output = s.io.output ++ Config.inPrompt) ∨
          (n < Config.inPrompt.length ∧ FailsWith (.ioFailure .outputFail) (Config.inPrompt.take n) s t))) ∧
      (∃ t, exec (.halt u) s = .next t ∧ ((Config.haltNotice.length ≤ n ∧ t.runState = .halted) ∨
        (n < Config.haltNotice.length ∧ FailsWith (.ioFailure .outputFail) (Config.haltNotice.take n) s t))))

/-- With no input there and the stream not ended, GETC and IN wait: everything is as before the fetch, the run goes on,
and IN has written its prompt once (R178, R174; the waiting step is log entry 5). The channels: log entries 7 and 8; the
prompt's bytes: D14, log entry 10. -/
def Obligations.GetcAndInWaitForInput : Prop :=
  ∀ (u : BitVec 4) (s : State), s.io.input = [] → s.io.inputEnded = false →
    (∃ t, exec (.getc u) s = .next t ∧ t = { s with pc := s.fetchPc, waiting := true }) ∧
    (s.waiting = true → ∃ t, exec (.inp u) s = .next t ∧ t = { s with pc := s.fetchPc }) ∧
    (s.waiting = false → SinkAccepts s.io Config.inPrompt.length → ∃ t, exec (.inp u) s = .next t ∧
      t = { s with
        pc := s.fetchPc, waiting := true,
        io := { s.io with output := s.io.output ++ Config.inPrompt, sinkRoom := roomAfter s.io Config.inPrompt.length } })

/-- PUTS and PUTSP with no zero word in memory never end: while the sink accepts, each step writes the bytes of all
65536 words once, starting at R0 (PUTS the low bytes, D10; PUTSP the packed bytes, D13), and is back before the fetch
with the run going on (R173, R175; D12; a lap a step is log entry 6). The sink: log entry 7; the constructors of PUTS
and PUTSP: log entry 12. -/
def Obligations.StringWithNoZeroWordNeverEnds : Prop :=
  ∀ s : State, s.runState = .running → (∀ a : Word, s.mem.read a ≠ 0x0000#16) →
    Config.memWords ≤ (lowBytes s.mem (s.reg 0) Config.memWords).length ∧
    Config.memWords ≤ (packedBytes s.mem (s.reg 0) Config.memWords).length ∧
    (∀ u, decodeWord (s.mem.read s.pc) = .puts u → SinkAccepts s.io (lowBytes s.mem (s.reg 0) Config.memWords).length →
      ∃ t, step s = .next t ∧ WritesOneLap (lowBytes s.mem (s.reg 0) Config.memWords) s t) ∧
    (∀ u, decodeWord (s.mem.read s.pc) = .putsp u → SinkAccepts s.io (packedBytes s.mem (s.reg 0) Config.memWords).length →
      ∃ t, step s = .next t ∧ WritesOneLap (packedBytes s.mem (s.reg 0) Config.memWords) s t)
end

