-- ==== Sys2Proof/Laws/State.lean ====
section
/-! SUPPORT. One lemma per field per state update, and the register file's read laws. Later proofs cite these and
never unfold a record update. -/

namespace Sys2Proof.Machine

variable (s : State)

/-! ### setReg -/

@[simp] theorem setReg_gpr (r : Reg) (v : Word) : (s.setReg r v).gpr = s.gpr.set r v := rfl
@[simp] theorem setReg_pc (r : Reg) (v : Word) : (s.setReg r v).pc = s.pc := rfl
@[simp] theorem setReg_cond (r : Reg) (v : Word) : (s.setReg r v).cond = s.cond := rfl
@[simp] theorem setReg_runState (r : Reg) (v : Word) : (s.setReg r v).runState = s.runState := rfl
@[simp] theorem setReg_ir (r : Reg) (v : Word) : (s.setReg r v).ir = s.ir := rfl
@[simp] theorem setReg_fetchPc (r : Reg) (v : Word) : (s.setReg r v).fetchPc = s.fetchPc := rfl
@[simp] theorem setReg_mem (r : Reg) (v : Word) : (s.setReg r v).mem = s.mem := rfl
@[simp] theorem setReg_io (r : Reg) (v : Word) : (s.setReg r v).io = s.io := rfl
@[simp] theorem setReg_waiting (r : Reg) (v : Word) : (s.setReg r v).waiting = s.waiting := rfl

/-! ### setcc -/

@[simp] theorem setcc_gpr (v : Word) : (s.setcc v).gpr = s.gpr := rfl
@[simp] theorem setcc_pc (v : Word) : (s.setcc v).pc = s.pc := rfl
@[simp] theorem setcc_cond (v : Word) : (s.setcc v).cond = flagOf v := rfl
@[simp] theorem setcc_runState (v : Word) : (s.setcc v).runState = s.runState := rfl
@[simp] theorem setcc_ir (v : Word) : (s.setcc v).ir = s.ir := rfl
@[simp] theorem setcc_fetchPc (v : Word) : (s.setcc v).fetchPc = s.fetchPc := rfl
@[simp] theorem setcc_mem (v : Word) : (s.setcc v).mem = s.mem := rfl
@[simp] theorem setcc_io (v : Word) : (s.setcc v).io = s.io := rfl
@[simp] theorem setcc_waiting (v : Word) : (s.setcc v).waiting = s.waiting := rfl

/-! ### define -/

@[simp] theorem define_gpr (r : Reg) (v : Word) : (s.define r v).gpr = s.gpr.set r v := rfl
@[simp] theorem define_pc (r : Reg) (v : Word) : (s.define r v).pc = s.pc := rfl
@[simp] theorem define_cond (r : Reg) (v : Word) : (s.define r v).cond = flagOf v := rfl
@[simp] theorem define_runState (r : Reg) (v : Word) : (s.define r v).runState = s.runState := rfl
@[simp] theorem define_ir (r : Reg) (v : Word) : (s.define r v).ir = s.ir := rfl
@[simp] theorem define_fetchPc (r : Reg) (v : Word) : (s.define r v).fetchPc = s.fetchPc := rfl
@[simp] theorem define_mem (r : Reg) (v : Word) : (s.define r v).mem = s.mem := rfl
@[simp] theorem define_io (r : Reg) (v : Word) : (s.define r v).io = s.io := rfl
@[simp] theorem define_waiting (r : Reg) (v : Word) : (s.define r v).waiting = s.waiting := rfl

/-! ### store -/

@[simp] theorem store_gpr (a v : Word) : (s.store a v).gpr = s.gpr := rfl
@[simp] theorem store_pc (a v : Word) : (s.store a v).pc = s.pc := rfl
@[simp] theorem store_cond (a v : Word) : (s.store a v).cond = s.cond := rfl
@[simp] theorem store_runState (a v : Word) : (s.store a v).runState = s.runState := rfl
@[simp] theorem store_ir (a v : Word) : (s.store a v).ir = s.ir := rfl
@[simp] theorem store_fetchPc (a v : Word) : (s.store a v).fetchPc = s.fetchPc := rfl
@[simp] theorem store_mem (a v : Word) : (s.store a v).mem = s.mem.write a v := rfl
@[simp] theorem store_io (a v : Word) : (s.store a v).io = s.io := rfl
@[simp] theorem store_waiting (a v : Word) : (s.store a v).waiting = s.waiting := rfl

/-! ### setPc -/

@[simp] theorem setPc_gpr (target : Word) : (s.setPc target).gpr = s.gpr := rfl
@[simp] theorem setPc_pc (target : Word) : (s.setPc target).pc = target := rfl
@[simp] theorem setPc_cond (target : Word) : (s.setPc target).cond = s.cond := rfl
@[simp] theorem setPc_runState (target : Word) : (s.setPc target).runState = s.runState := rfl
@[simp] theorem setPc_ir (target : Word) : (s.setPc target).ir = s.ir := rfl
@[simp] theorem setPc_fetchPc (target : Word) : (s.setPc target).fetchPc = s.fetchPc := rfl
@[simp] theorem setPc_mem (target : Word) : (s.setPc target).mem = s.mem := rfl
@[simp] theorem setPc_io (target : Word) : (s.setPc target).io = s.io := rfl
@[simp] theorem setPc_waiting (target : Word) : (s.setPc target).waiting = s.waiting := rfl

/-! ### link -/

@[simp] theorem link_gpr : (s.link).gpr = s.gpr.set 7 s.pc := rfl
@[simp] theorem link_pc : (s.link).pc = s.pc := rfl
@[simp] theorem link_cond : (s.link).cond = s.cond := rfl
@[simp] theorem link_runState : (s.link).runState = s.runState := rfl
@[simp] theorem link_ir : (s.link).ir = s.ir := rfl
@[simp] theorem link_fetchPc : (s.link).fetchPc = s.fetchPc := rfl
@[simp] theorem link_mem : (s.link).mem = s.mem := rfl
@[simp] theorem link_io : (s.link).io = s.io := rfl
@[simp] theorem link_waiting : (s.link).waiting = s.waiting := rfl

/-! ### fetch -/

@[simp] theorem fetch_gpr : (s.fetch).gpr = s.gpr := rfl
@[simp] theorem fetch_pc : (s.fetch).pc = s.pc + 1 := rfl
@[simp] theorem fetch_cond : (s.fetch).cond = s.cond := rfl
@[simp] theorem fetch_runState : (s.fetch).runState = s.runState := rfl
@[simp] theorem fetch_ir : (s.fetch).ir = s.mem.read s.pc := rfl
@[simp] theorem fetch_fetchPc : (s.fetch).fetchPc = s.pc := rfl
@[simp] theorem fetch_mem : (s.fetch).mem = s.mem := rfl
@[simp] theorem fetch_io : (s.fetch).io = s.io := rfl
@[simp] theorem fetch_waiting : (s.fetch).waiting = s.waiting := rfl

/-! ### unfetch -/

@[simp] theorem unfetch_gpr (io : Channels) : (s.unfetch io).gpr = s.gpr := rfl
@[simp] theorem unfetch_pc (io : Channels) : (s.unfetch io).pc = s.fetchPc := rfl
@[simp] theorem unfetch_cond (io : Channels) : (s.unfetch io).cond = s.cond := rfl
@[simp] theorem unfetch_runState (io : Channels) : (s.unfetch io).runState = s.runState := rfl
@[simp] theorem unfetch_ir (io : Channels) : (s.unfetch io).ir = s.ir := rfl
@[simp] theorem unfetch_fetchPc (io : Channels) : (s.unfetch io).fetchPc = s.fetchPc := rfl
@[simp] theorem unfetch_mem (io : Channels) : (s.unfetch io).mem = s.mem := rfl
@[simp] theorem unfetch_io (io : Channels) : (s.unfetch io).io = io := rfl
@[simp] theorem unfetch_waiting (io : Channels) : (s.unfetch io).waiting = s.waiting := rfl

/-! ### trapEntry -/

@[simp] theorem trapEntry_gpr : (trapEntry s).gpr = s.gpr.set 7 s.pc := rfl
@[simp] theorem trapEntry_pc : (trapEntry s).pc = s.pc := rfl
@[simp] theorem trapEntry_cond : (trapEntry s).cond = s.cond := rfl
@[simp] theorem trapEntry_runState : (trapEntry s).runState = s.runState := rfl
@[simp] theorem trapEntry_ir : (trapEntry s).ir = s.ir := rfl
@[simp] theorem trapEntry_fetchPc : (trapEntry s).fetchPc = s.fetchPc := rfl
@[simp] theorem trapEntry_mem : (trapEntry s).mem = s.mem := rfl
@[simp] theorem trapEntry_io : (trapEntry s).io = s.io := rfl
@[simp] theorem trapEntry_waiting : (trapEntry s).waiting = s.waiting := rfl

/-! ### raiseFatal -/

@[simp] theorem raiseFatal_gpr (why : Cause) (io : Channels) : (raiseFatal why s io).gpr = s.gpr := rfl
@[simp] theorem raiseFatal_pc (why : Cause) (io : Channels) : (raiseFatal why s io).pc = s.fetchPc := rfl
@[simp] theorem raiseFatal_cond (why : Cause) (io : Channels) : (raiseFatal why s io).cond = s.cond := rfl
@[simp] theorem raiseFatal_runState (why : Cause) (io : Channels) : (raiseFatal why s io).runState = .fatal ⟨why, s.ir, s.fetchPc⟩ := rfl
@[simp] theorem raiseFatal_ir (why : Cause) (io : Channels) : (raiseFatal why s io).ir = s.ir := rfl
@[simp] theorem raiseFatal_fetchPc (why : Cause) (io : Channels) : (raiseFatal why s io).fetchPc = s.fetchPc := rfl
@[simp] theorem raiseFatal_mem (why : Cause) (io : Channels) : (raiseFatal why s io).mem = s.mem := rfl
@[simp] theorem raiseFatal_io (why : Cause) (io : Channels) : (raiseFatal why s io).io = io := rfl
@[simp] theorem raiseFatal_waiting (why : Cause) (io : Channels) : (raiseFatal why s io).waiting = false := rfl

/-! ### construct and the host's supply of input -/

variable (m : Memory) (io : Channels) (b : Byte)

@[simp] theorem construct_gpr : (construct m io).gpr = Vector.replicate 8 0x0000#16 := rfl
@[simp] theorem construct_pc : (construct m io).pc = Config.pcStart := rfl
@[simp] theorem construct_cond : (construct m io).cond = Config.zero := rfl
@[simp] theorem construct_runState : (construct m io).runState = .running := rfl
@[simp] theorem construct_ir : (construct m io).ir = 0x0000#16 := rfl
@[simp] theorem construct_fetchPc : (construct m io).fetchPc = 0x0000#16 := rfl
@[simp] theorem construct_mem : (construct m io).mem = m := rfl
@[simp] theorem construct_io : (construct m io).io = io := rfl
@[simp] theorem construct_waiting : (construct m io).waiting = false := rfl

@[simp] theorem supplyByte_gpr : (supplyByte b s).gpr = s.gpr := by unfold supplyByte; split <;> rfl
@[simp] theorem supplyByte_pc : (supplyByte b s).pc = s.pc := by unfold supplyByte; split <;> rfl
@[simp] theorem supplyByte_cond : (supplyByte b s).cond = s.cond := by unfold supplyByte; split <;> rfl
@[simp] theorem supplyByte_runState : (supplyByte b s).runState = s.runState := by unfold supplyByte; split <;> rfl
@[simp] theorem supplyByte_ir : (supplyByte b s).ir = s.ir := by unfold supplyByte; split <;> rfl
@[simp] theorem supplyByte_fetchPc : (supplyByte b s).fetchPc = s.fetchPc := by unfold supplyByte; split <;> rfl
@[simp] theorem supplyByte_mem : (supplyByte b s).mem = s.mem := by unfold supplyByte; split <;> rfl
@[simp] theorem supplyByte_waiting : (supplyByte b s).waiting = s.waiting := by unfold supplyByte; split <;> rfl

@[simp] theorem endInput_gpr : (endInput s).gpr = s.gpr := rfl
@[simp] theorem endInput_pc : (endInput s).pc = s.pc := rfl
@[simp] theorem endInput_cond : (endInput s).cond = s.cond := rfl
@[simp] theorem endInput_runState : (endInput s).runState = s.runState := rfl
@[simp] theorem endInput_ir : (endInput s).ir = s.ir := rfl
@[simp] theorem endInput_fetchPc : (endInput s).fetchPc = s.fetchPc := rfl
@[simp] theorem endInput_mem : (endInput s).mem = s.mem := rfl
@[simp] theorem endInput_waiting : (endInput s).waiting = s.waiting := rfl

/-! ### Reading registers -/

/-- A register reads as what was last written to it, the others as before (R10, R21). -/
theorem reg_setReg (r q : Reg) (v : Word) : (s.setReg r v).reg q = if q = r then v else s.reg q := by
  simp only [State.reg, State.setReg, Fin.getElem_fin, Vector.getElem_set, Fin.ext_iff, eq_comm]

@[simp] theorem reg_setReg_self (r : Reg) (v : Word) : (s.setReg r v).reg r = v := by simp [reg_setReg]

theorem reg_setReg_of_ne (r q : Reg) (v : Word) (h : q ≠ r) : (s.setReg r v).reg q = s.reg q := by
  simp [reg_setReg, h]

/-- Defining a register reads as writing it. -/
theorem reg_define (r q : Reg) (v : Word) : (s.define r v).reg q = if q = r then v else s.reg q :=
  reg_setReg s r q v

/-- The link of a subroutine call is a write of R7. -/
theorem reg_link (q : Reg) : s.link.reg q = if q = 7 then s.pc else s.reg q := reg_setReg s 7 q s.pc

/-- TRAP entry is a write of R7. -/
theorem reg_trapEntry (q : Reg) : (trapEntry s).reg q = if q = 7 then s.pc else s.reg q := reg_setReg s 7 q s.pc

@[simp] theorem reg_setcc (q : Reg) (v : Word) : (s.setcc v).reg q = s.reg q := rfl
@[simp] theorem reg_store (q : Reg) (a v : Word) : (s.store a v).reg q = s.reg q := rfl
@[simp] theorem reg_setPc (q : Reg) (target : Word) : (s.setPc target).reg q = s.reg q := rfl
@[simp] theorem reg_fetch (q : Reg) : s.fetch.reg q = s.reg q := rfl
@[simp] theorem reg_unfetch (q : Reg) (io : Channels) : (s.unfetch io).reg q = s.reg q := rfl
@[simp] theorem reg_raiseFatal (q : Reg) (why : Cause) (io : Channels) : (raiseFatal why s io).reg q = s.reg q := rfl

end Sys2Proof.Machine
end

