-- ==== Sys2Proof/Laws/Memory.lean ====
section
/-! SUPPORT. Memory: what a read gives after a write, and that every operation keeps the canonical form
(spec 20_memory.md R42, R43; log entry 1). -/

namespace Sys2Proof.Machine

theorem cell_of_absent (m : Memory) (a : Nat) (absent : ∀ c ∈ m, c.1 ≠ a) : Memory.cell m a = Config.unlistedWord := by
  induction m with
  | nil => rfl
  | cons c rest ih =>
    have hc : c.1 ≠ a := absent c (by simp)
    simp only [Memory.cell, hc, if_false]
    exact ih (fun d hd => absent d (by simp [hd]))

theorem cell_append (m n : Memory) (a : Nat) :
    Memory.cell (m ++ n) a = if ∃ c ∈ m, c.1 = a then Memory.cell m a else Memory.cell n a := by
  induction m with
  | nil => simp
  | cons c rest ih => by_cases h : c.1 = a <;> simp [Memory.cell, h, ih]

theorem cell_filter_of_keeps (m : Memory) (p : Cell → Bool) (a : Nat) (keeps : ∀ v, p (a, v) = true) :
    Memory.cell (m.filter p) a = Memory.cell m a := by
  induction m with
  | nil => rfl
  | cons c rest ih =>
    obtain ⟨k, v⟩ := c
    by_cases h : k = a
    · subst h; simp [keeps, Memory.cell]
    · by_cases hp : p (k, v) <;> simp [hp, Memory.cell, h, ih]

theorem cell_single (a b : Nat) (v : Word) : Memory.cell (Memory.single a v) b = if b = a then v else Config.unlistedWord := by
  by_cases hv : v = Config.unlistedWord
  · simp [Memory.single, hv, Memory.cell]
  · by_cases hb : b = a
    · subst hb; simp [Memory.single, hv, Memory.cell]
    · simp [Memory.single, hv, Memory.cell, hb, Ne.symm hb]

/-- A write changes one cell, whatever the list (R43). -/
theorem cell_write (m : Memory) (addr v : Word) (b : Nat) :
    Memory.cell (m.write addr v) b = if b = addr.toNat then v else Memory.cell m b := by
  rcases Nat.lt_trichotomy b addr.toNat with h | h | h
  · have hne : b ≠ addr.toNat := by omega
    by_cases hin : ∃ c ∈ m, c.1 = b
    · have : ∃ c ∈ m.filter (fun c => decide (c.1 < addr.toNat)), c.1 = b := by
        obtain ⟨c, hc, rfl⟩ := hin; exact ⟨c, by simp [hc, h], rfl⟩
      rw [Memory.write, List.append_assoc, cell_append, if_pos this, if_neg hne]
      exact cell_filter_of_keeps m _ b (by simp [h])
    · have hno : ∀ c ∈ m, c.1 ≠ b := fun c hc e => hin ⟨c, hc, e⟩
      rw [if_neg hne, cell_of_absent m b hno]
      refine cell_of_absent _ b fun c hc => ?_
      simp only [Memory.write, Memory.single, List.mem_append, List.mem_filter] at hc
      rcases hc with (⟨hc, _⟩ | hc) | ⟨hc, _⟩
      · exact hno c hc
      · split at hc
        · cases hc
        · rw [List.mem_singleton] at hc; subst hc; exact (Ne.symm hne)
      · exact hno c hc
  · subst h
    have hnot : ¬ ∃ c ∈ m.filter (fun c => decide (c.1 < addr.toNat)), c.1 = addr.toNat := by
      rintro ⟨c, hc, e⟩; simp at hc; omega
    rw [Memory.write, List.append_assoc, cell_append, if_neg hnot, cell_append, if_pos rfl]
    have hgt : Memory.cell (m.filter (fun c => decide (addr.toNat < c.1))) addr.toNat = Config.unlistedWord :=
      cell_of_absent _ _ fun c hc => by simp at hc; omega
    split
    · simp [cell_single]
    · rename_i hempty
      by_cases hv : v = Config.unlistedWord
      · rw [hgt, hv]
      · exact absurd ⟨(addr.toNat, v), by simp [Memory.single, hv], rfl⟩ hempty
  · have hne : b ≠ addr.toNat := by omega
    have hnot : ¬ ∃ c ∈ m.filter (fun c => decide (c.1 < addr.toNat)), c.1 = b := by
      rintro ⟨c, hc, e⟩; simp at hc; omega
    have hnot' : ¬ ∃ c ∈ Memory.single addr.toNat v, c.1 = b := by
      rintro ⟨c, hc, e⟩
      simp only [Memory.single] at hc
      split at hc
      · cases hc
      · rw [List.mem_singleton] at hc; subst hc; exact hne e.symm
    rw [Memory.write, List.append_assoc, cell_append, if_neg hnot, cell_append, if_neg hnot', if_neg hne]
    exact cell_filter_of_keeps m _ b (by simp [h])

/-- Reading after a write (R42, R43). -/
theorem read_write (m : Memory) (addr v b : Word) :
    (m.write addr v).read b = if b = addr then v else m.read b := by
  simp only [Memory.read, cell_write, ← BitVec.toNat_inj]

theorem single_mem {a : Nat} {v : Word} {c : Cell} (h : c ∈ Memory.single a v) :
    c = (a, v) ∧ v ≠ Config.unlistedWord := by
  unfold Memory.single at h
  split at h
  · cases h
  · exact ⟨List.mem_singleton.1 h, ‹_›⟩

/-- A write keeps the canonical form. -/
theorem write_wf (m : Memory) (addr v : Word) (canonical : m.wf) : (m.write addr v).wf := by
  obtain ⟨sorted, good⟩ := canonical
  constructor
  · simp only [Memory.write, List.pairwise_append]
    refine ⟨⟨sorted.filter _, ?_, ?_⟩, sorted.filter _, ?_⟩
    · unfold Memory.single; split <;> simp
    · intro c hc d hd
      obtain ⟨rfl, _⟩ := single_mem hd
      simpa using (List.mem_filter.1 hc).2
    · intro c hc d hd
      have hd' : addr.toNat < d.1 := by simpa using (List.mem_filter.1 hd).2
      rcases List.mem_append.1 hc with hc | hc
      · have : c.1 < addr.toNat := by simpa using (List.mem_filter.1 hc).2
        omega
      · obtain ⟨rfl, _⟩ := single_mem hc; exact hd'
  · intro c hc
    simp only [Memory.write, List.mem_append, List.mem_filter] at hc
    rcases hc with (⟨hc, _⟩ | hc) | ⟨hc, _⟩
    · exact good c hc
    · obtain ⟨rfl, hv⟩ := single_mem hc; exact ⟨addr.isLt, hv⟩
    · exact good c hc

/-- Loading a block keeps the canonical form. -/
theorem writeBlock_wf (values : List Word) (m : Memory) (a : Word) (canonical : m.wf) : (m.writeBlock a values).wf := by
  induction values generalizing m a with
  | nil => exact canonical
  | cons v rest ih => exact ih _ _ (write_wf m a v canonical)

/-- A load that is not refused is the writes of its image, and keeps the canonical form (R57). -/
theorem loadBlock_next {values : List Word} {origin : Word} {m m' : Memory} (h : loadBlock values origin m = .next m') :
    origin.toNat + values.length ≤ Config.memWords ∧ m' = m.writeBlock origin values ∧ (m.wf → m'.wf) := by
  unfold loadBlock at h
  split at h
  · cases h; exact ⟨‹_›, rfl, writeBlock_wf values m origin⟩
  · cases h

/-- Reset memory is canonical. -/
theorem reset_mem_wf : State.reset.mem.wf := by decide

end Sys2Proof.Machine
end

