-- ==== Sys2Proof/Laws/Channels.lean ====
section
/-! SUPPORT. The host's channels and the services' loop over a string: what each operation can answer. -/

namespace Sys2Proof.Machine

/-! ### OutByte -/

theorem outByte_none {b : Byte} {io : Channels} (h : io.sinkRoom = none) :
    outByte b io = .ok { io with output := io.output ++ [b] } := by simp [outByte, h]

theorem outByte_zero {b : Byte} {io : Channels} (h : io.sinkRoom = some 0) : outByte b io = .fail io := by
  simp [outByte, h]

theorem outByte_succ {b : Byte} {io : Channels} {n : Nat} (h : io.sinkRoom = some (n + 1)) :
    outByte b io = .ok { io with output := io.output ++ [b], sinkRoom := some n } := by simp [outByte, h]

theorem outBytes_nil (io : Channels) : outBytes [] io = .ok io := by
  obtain ⟨input, ended, output, room⟩ := io
  cases room <;> simp [outBytes]

/-- `outBytes` is the spec's loop: `OutByte` on the first byte, then on the rest, stopping at a `fail` (R173, R177). -/
theorem outBytes_cons (b : Byte) (bs : List Byte) (io : Channels) :
    outBytes (b :: bs) io = match outByte b io with
      | .ok io' => outBytes bs io'
      | .fail io' => .fail io' := by
  obtain ⟨input, ended, output, room⟩ := io
  rcases room with _ | _ | n
  · simp [outBytes, outByte]
  · simp [outBytes, outByte]
  · by_cases h : bs.length ≤ n
    · simp [outBytes, outByte, h]
    · simp [outBytes, outByte, h]

/-- Everything `outBytes` can answer: all bytes accepted, or as many as the sink had room for. The input side is never
touched. -/
theorem outBytes_cases (bs : List Byte) (io : Channels) :
    (outBytes bs io = .ok { io with output := io.output ++ bs, sinkRoom := io.sinkRoom.map (· - bs.length) } ∧
      ∀ n, io.sinkRoom = some n → bs.length ≤ n) ∨
    (∃ n, io.sinkRoom = some n ∧ n < bs.length ∧
      outBytes bs io = .fail { io with output := io.output ++ bs.take n, sinkRoom := some 0 }) := by
  obtain ⟨input, ended, output, room⟩ := io
  rcases room with _ | n
  · left; simp [outBytes]
  · by_cases h : bs.length ≤ n
    · left; simp [outBytes, h]
    · right; exact ⟨n, rfl, by omega, by simp [outBytes, h]⟩

/-! ### InByte -/

/-- Everything `InByte()` can answer. -/
theorem inByte_cases (io : Channels) :
    (∃ b rest, io.input = b :: rest ∧ inByte io = .byte b { io with input := rest }) ∨
    (io.input = [] ∧ io.inputEnded = true ∧ inByte io = .eos) ∨
    (io.input = [] ∧ io.inputEnded = false ∧ inByte io = .blocked) := by
  obtain ⟨input, ended, output, room⟩ := io
  rcases input with _ | ⟨b, rest⟩
  · cases ended <;> simp [inByte]
  · left; exact ⟨b, rest, rfl, rfl⟩

/-! ### The loop over a string -/

/-- A string that ends after `k` cells: the scan gives the bytes of those cells and finds the end. -/
theorem scanString_ends (bytes : Word → List Byte) (m : Memory) (k : Nat) : ∀ (fuel : Nat) (a : Word), k < fuel →
    (∀ j < k, m.read (a + BitVec.ofNat 16 j) ≠ 0x0000#16) → m.read (a + BitVec.ofNat 16 k) = 0x0000#16 →
    scanString bytes m fuel a = ((List.range k).flatMap (fun j => bytes (m.read (a + BitVec.ofNat 16 j))), true) := by
  induction k with
  | zero =>
    intro fuel a hf _ hend
    obtain ⟨f, rfl⟩ : ∃ f, fuel = f + 1 := ⟨fuel - 1, by omega⟩
    simp only [BitVec.add_zero] at hend
    simp [scanString, hend]
  | succ k ih =>
    intro fuel a hf hne hend
    obtain ⟨f, rfl⟩ : ∃ f, fuel = f + 1 := ⟨fuel - 1, by omega⟩
    have shift : ∀ j, a + 1 + BitVec.ofNat 16 j = a + BitVec.ofNat 16 (j + 1) := fun j => by
      apply BitVec.eq_of_toNat_eq; simp; omega
    have first : m.read a ≠ 0x0000#16 := by simpa using hne 0 (by omega)
    have later := ih f (a + 1) (by omega) (fun j hj => by rw [shift]; exact hne (j + 1) (by omega)) (by rw [shift]; exact hend)
    simp only [shift] at later
    rw [scanString, if_neg first, later]
    simp [List.range_succ_eq_map, List.flatMap_map, Nat.succ_eq_add_one]

/-- A string with no zero word in the cells scanned: the scan gives all their bytes and finds no end. -/
theorem scanString_endless (bytes : Word → List Byte) (m : Memory) (nonzero : ∀ a, m.read a ≠ 0x0000#16) :
    ∀ (fuel : Nat) (a : Word), scanString bytes m fuel a =
      ((List.range fuel).flatMap (fun j => bytes (m.read (a + BitVec.ofNat 16 j))), false) := by
  intro fuel
  induction fuel with
  | zero => intro a; rfl
  | succ f ih =>
    intro a
    have shift : ∀ j, a + 1 + BitVec.ofNat 16 j = a + BitVec.ofNat 16 (j + 1) := fun j => by
      apply BitVec.eq_of_toNat_eq; simp; omega
    have later := ih (a + 1)
    simp only [shift] at later
    rw [scanString, if_neg (nonzero a), later]
    simp [List.range_succ_eq_map, List.flatMap_map, Nat.succ_eq_add_one]

end Sys2Proof.Machine
end

