-- ==== Sys2Proof/Laws/Decode.lean ====
section
/-! SUPPORT. Bits of placed fields, and fields of placed fields: what proofs about the encoder and the decoder use. -/

namespace Sys2Proof

@[simp] theorem field_getElem (w : Word) (lo len i : Nat) (h : i < len) : (field w lo len)[i] = w.getLsbD (lo + i) := by
  simp [field]

@[simp] theorem place_getLsbD {n : Nat} (b : BitVec n) (lo i : Nat) :
    (place b lo).getLsbD i = (decide (i < 16) && (!decide (i < lo) && b.getLsbD (i - lo))) := by
  simp only [place, BitVec.getLsbD_shiftLeft, BitVec.getLsbD_setWidth]
  by_cases h : i < 16 <;> by_cases h' : i < lo <;> simp [h, h'] ; omega

@[simp] theorem place_getElem {n : Nat} (b : BitVec n) (lo i : Nat) (h : i < 16) :
    (place b lo)[i] = (!decide (i < lo) && b.getLsbD (i - lo)) := by
  rw [← BitVec.getLsbD_eq_getElem, place_getLsbD]; simp [h]

@[simp] theorem regBits_regField (w : Word) (lo : Nat) : regBits (regField w lo) = field w lo 3 := rfl

@[simp] theorem toFin_regBits (r : Reg) : (regBits r).toFin = r := rfl

/-- A register field holds `r` exactly when its three bits are `r`'s. -/
theorem regField_eq_iff (w : Word) (lo : Nat) (r : Reg) : regField w lo = r ↔ field w lo 3 = regBits r := by
  constructor
  · rintro rfl; rfl
  · intro h; simp [regField, h]

/-- The opcode numbers are a bijection (R64). -/
theorem opcodeOf_injective (m n : BitVec 4) (h : opcodeOf m = opcodeOf n) : m = n := by
  revert h; revert m n; decide

/-- The opcode numbers, one case each. -/
theorem nibble_cases (n : BitVec 4) : n = 0x0#4 ∨ n = 0x1#4 ∨ n = 0x2#4 ∨ n = 0x3#4 ∨ n = 0x4#4 ∨ n = 0x5#4 ∨ n = 0x6#4 ∨
    n = 0x7#4 ∨ n = 0x8#4 ∨ n = 0x9#4 ∨ n = 0xA#4 ∨ n = 0xB#4 ∨ n = 0xC#4 ∨ n = 0xD#4 ∨ n = 0xE#4 ∨ n = 0xF#4 := by
  revert n; decide

/-- TRAP words (R74, R78): a service of one of the six vectors, or TRAP with another vector. -/
theorem decodeTrap_cases (w : Word) :
    (field w 0 8 = 0x20#8 ∧ decodeTrap w = .getc (field w 8 4)) ∨ (field w 0 8 = 0x21#8 ∧ decodeTrap w = .out (field w 8 4)) ∨
    (field w 0 8 = 0x22#8 ∧ decodeTrap w = .puts (field w 8 4)) ∨ (field w 0 8 = 0x23#8 ∧ decodeTrap w = .inp (field w 8 4)) ∨
    (field w 0 8 = 0x24#8 ∧ decodeTrap w = .putsp (field w 8 4)) ∨ (field w 0 8 = 0x25#8 ∧ decodeTrap w = .halt (field w 8 4)) ∨
    (isServiceVector (field w 0 8) = false ∧ decodeTrap w = .trap (field w 8 4) (field w 0 8)) := by
  simp only [isServiceVector, Bool.and_eq_false_iff, decide_eq_false_iff_not, ← BitVec.toNat_inj, BitVec.toNat_ofNat]
  unfold decodeTrap
  split <;> simp_all
  omega

/-- The word's fields, by opcode (R64 to R75). -/
theorem decodeWord_cases (w : Word) :
    (field w 12 4 = 0x0#4 ∧ decodeWord w = .br (field w 9 3) (field w 0 9)) ∨
    (field w 12 4 = 0x1#4 ∧ decodeWord w = decodeAdd w) ∨
    (field w 12 4 = 0x2#4 ∧ decodeWord w = .ld (regField w 9) (field w 0 9)) ∨
    (field w 12 4 = 0x3#4 ∧ decodeWord w = .st (regField w 9) (field w 0 9)) ∨
    (field w 12 4 = 0x4#4 ∧ decodeWord w = decodeJsr w) ∨
    (field w 12 4 = 0x5#4 ∧ decodeWord w = decodeAnd w) ∨
    (field w 12 4 = 0x6#4 ∧ decodeWord w = .ldr (regField w 9) (regField w 6) (field w 0 6)) ∨
    (field w 12 4 = 0x7#4 ∧ decodeWord w = .str (regField w 9) (regField w 6) (field w 0 6)) ∨
    (field w 12 4 = 0x8#4 ∧ decodeWord w = .rti (field w 0 12)) ∨
    (field w 12 4 = 0x9#4 ∧ decodeWord w = .not (regField w 9) (regField w 6) (field w 0 6)) ∨
    (field w 12 4 = 0xA#4 ∧ decodeWord w = .ldi (regField w 9) (field w 0 9)) ∨
    (field w 12 4 = 0xB#4 ∧ decodeWord w = .sti (regField w 9) (field w 0 9)) ∨
    (field w 12 4 = 0xC#4 ∧ decodeWord w = decodeJmp w) ∨
    (field w 12 4 = 0xD#4 ∧ decodeWord w = .res (field w 0 12)) ∨
    (field w 12 4 = 0xE#4 ∧ decodeWord w = .lea (regField w 9) (field w 0 9)) ∨
    (field w 12 4 = 0xF#4 ∧ decodeWord w = decodeTrap w) := by
  rcases nibble_cases (field w 12 4) with h | h | h | h | h | h | h | h | h | h | h | h | h | h | h | h <;>
    simp [decodeWord, h, opcodeOf]

/-- The decoder gives no JMP through R7. -/
theorem decodeWord_ne_jmp7 (w : Word) (hi : BitVec 3) (lo : BitVec 6) : decodeWord w ≠ .jmp hi 7 lo := by
  intro h
  rcases decodeWord_cases w with ⟨_, e⟩ | ⟨_, e⟩ | ⟨_, e⟩ | ⟨_, e⟩ | ⟨_, e⟩ | ⟨_, e⟩ | ⟨_, e⟩ | ⟨_, e⟩ | ⟨_, e⟩ | ⟨_, e⟩ |
    ⟨_, e⟩ | ⟨_, e⟩ | ⟨_, e⟩ | ⟨_, e⟩ | ⟨_, e⟩ | ⟨_, e⟩ <;> rw [e] at h
  all_goals first
    | (simp at h)
    | (unfold decodeAdd at h; split at h <;> simp at h)
    | (unfold decodeAnd at h; split at h <;> simp at h)
    | (unfold decodeJsr at h; split at h <;> simp at h)
    | (unfold decodeJmp at h; split at h <;> simp_all)
    | (unfold decodeTrap at h; split at h <;> simp at h)

/-- The decoder gives TRAP only for the vectors that select no service. -/
theorem decodeWord_trap {w : Word} {u : BitVec 4} {v : BitVec 8} (h : decodeWord w = .trap u v) :
    field w 12 4 = 0xF#4 ∧ field w 0 8 = v ∧ isServiceVector v = false := by
  rcases decodeWord_cases w with ⟨_, e⟩ | ⟨_, e⟩ | ⟨_, e⟩ | ⟨_, e⟩ | ⟨_, e⟩ | ⟨_, e⟩ | ⟨_, e⟩ | ⟨_, e⟩ | ⟨_, e⟩ | ⟨_, e⟩ |
    ⟨_, e⟩ | ⟨_, e⟩ | ⟨_, e⟩ | ⟨_, e⟩ | ⟨_, e⟩ | ⟨n, e⟩ <;> rw [e] at h
  all_goals first
    | (simp at h)
    | (unfold decodeAdd at h; split at h <;> simp at h)
    | (unfold decodeAnd at h; split at h <;> simp at h)
    | (unfold decodeJsr at h; split at h <;> simp at h)
    | (unfold decodeJmp at h; split at h <;> simp at h)
    | skip
  rcases decodeTrap_cases w with ⟨_, e'⟩ | ⟨_, e'⟩ | ⟨_, e'⟩ | ⟨_, e'⟩ | ⟨_, e'⟩ | ⟨_, e'⟩ | ⟨hv, e'⟩ <;> rw [e'] at h <;>
    simp at h
  obtain ⟨_, rfl⟩ := h
  exact ⟨n, rfl, hv⟩

end Sys2Proof
end

