-- ==== Sys2Proof/Laws/Services.lean ====
section
/-! SUPPORT. What a TRAP can do: the inversion lemma of `runService`, and what each service can answer. -/

namespace Sys2Proof.Machine

/-- Everything a recognised TRAP can do, one case per answer of its service (R160, R170). -/
theorem runService_cases (service : State → ServiceAnswer) (s : State) :
    (∃ t, service (trapEntry s) = .proceed t ∧ runService service s = { t with waiting := false }) ∨
    (∃ t, service (trapEntry s) = .halt t ∧ runService service s = { t with runState := .halted, waiting := false }) ∨
    (∃ sub io, service (trapEntry s) = .fail sub io ∧ runService service s = raiseFatal (.ioFailure sub) s io) ∨
    (∃ io, service (trapEntry s) = .wait io ∧ runService service s = { s.unfetch io with waiting := true }) ∨
    (∃ io, service (trapEntry s) = .again io ∧ runService service s = { s.unfetch io with waiting := false }) := by
  unfold runService
  cases h : service (trapEntry s) <;> simp

/-- GETC proceeds with a byte in R0, fails at the end of input, or waits (R171). -/
theorem serviceGetc_cases (s : State) :
    (∃ b rest, s.io.input = b :: rest ∧
      serviceGetc s = .proceed ({ s with io := { s.io with input := rest } }.setReg 0 (zextByte b))) ∨
    (s.io.input = [] ∧ s.io.inputEnded = true ∧ serviceGetc s = .fail .inputEos s.io) ∨
    (s.io.input = [] ∧ s.io.inputEnded = false ∧ serviceGetc s = .wait s.io) := by
  unfold serviceGetc
  rcases inByte_cases s.io with ⟨b, rest, h, e⟩ | ⟨h, h', e⟩ | ⟨h, h', e⟩ <;> rw [e] <;> simp_all

/-- Writing bytes proceeds, or fails with what the sink had room for (R172, R177). -/
theorem serviceWrite_cases (bs : List Byte) (s : State) :
    (serviceWrite bs s = .proceed { s with io := { s.io with output := s.io.output ++ bs, sinkRoom := s.io.sinkRoom.map (· - bs.length) } } ∧
      ∀ n, s.io.sinkRoom = some n → bs.length ≤ n) ∨
    (∃ n, s.io.sinkRoom = some n ∧ n < bs.length ∧
      serviceWrite bs s = .fail .outputFail { s.io with output := s.io.output ++ bs.take n, sinkRoom := some 0 }) := by
  unfold serviceWrite
  rcases outBytes_cases bs s.io with ⟨e, h⟩ | ⟨n, h, hl, e⟩ <;> rw [e]
  · exact .inl ⟨rfl, h⟩
  · exact .inr ⟨n, h, hl, rfl⟩

/-- PUTS and PUTSP proceed after the whole string, go round again where it has no end, or fail (R173, R175, R177). -/
theorem serviceString_cases (bytes : Word → List Byte) (s : State) :
    ∃ bs ended, scanString bytes s.mem Config.memWords (s.reg 0) = (bs, ended) ∧
    ((ended = true ∧ (∀ n, s.io.sinkRoom = some n → bs.length ≤ n) ∧ serviceString bytes s =
        .proceed { s with io := { s.io with output := s.io.output ++ bs, sinkRoom := s.io.sinkRoom.map (· - bs.length) } }) ∨
     (ended = false ∧ (∀ n, s.io.sinkRoom = some n → bs.length ≤ n) ∧ serviceString bytes s =
        .again { s.io with output := s.io.output ++ bs, sinkRoom := s.io.sinkRoom.map (· - bs.length) }) ∨
     (∃ n, s.io.sinkRoom = some n ∧ n < bs.length ∧ serviceString bytes s =
        .fail .outputFail { s.io with output := s.io.output ++ bs.take n, sinkRoom := some 0 })) := by
  simp only [serviceString]
  generalize scanString bytes s.mem Config.memWords (s.reg 0) = string
  obtain ⟨bs, ended⟩ := string
  refine ⟨bs, ended, rfl, ?_⟩
  rcases outBytes_cases bs s.io with ⟨e, h⟩ | ⟨n, h, hl, e⟩
  · cases ended
    · exact .inr (.inl ⟨rfl, h, by simp [e]⟩)
    · exact .inl ⟨rfl, h, by simp [e]⟩
  · exact .inr (.inr ⟨n, h, hl, by simp [e]⟩)

/-- IN's read defines R0, fails at the end of input, or waits (R174). -/
theorem readDefiningR0_cases (s : State) (io : Channels) :
    (∃ b rest, io.input = b :: rest ∧
      readDefiningR0 s io = .proceed ({ s with io := { io with input := rest } }.define 0 (zextByte b))) ∨
    (io.input = [] ∧ io.inputEnded = true ∧ readDefiningR0 s io = .fail .inputEos io) ∨
    (io.input = [] ∧ io.inputEnded = false ∧ readDefiningR0 s io = .wait io) := by
  unfold readDefiningR0
  rcases inByte_cases io with ⟨b, rest, h, e⟩ | ⟨h, h', e⟩ | ⟨h, h', e⟩ <;> rw [e] <;> simp_all

/-- IN writes its prompt, unless it was waiting, and then reads; or the sink refuses the prompt (R174, R205). -/
theorem serviceIn_cases (s : State) :
    (s.waiting = true ∧ serviceIn s = readDefiningR0 s s.io) ∨
    (s.waiting = false ∧ (∀ n, s.io.sinkRoom = some n → Config.inPrompt.length ≤ n) ∧ serviceIn s = readDefiningR0 s
      { s.io with output := s.io.output ++ Config.inPrompt, sinkRoom := s.io.sinkRoom.map (· - Config.inPrompt.length) }) ∨
    (s.waiting = false ∧ ∃ n, s.io.sinkRoom = some n ∧ n < Config.inPrompt.length ∧ serviceIn s =
      .fail .outputFail { s.io with output := s.io.output ++ Config.inPrompt.take n, sinkRoom := some 0 }) := by
  unfold serviceIn prompt
  cases hw : s.waiting
  · right
    rcases outBytes_cases Config.inPrompt s.io with ⟨e, h⟩ | ⟨n, h, hl, e⟩
    · left; simp only [e]; simp; exact h
    · right; exact ⟨rfl, n, h, hl, by simp [e]⟩
  · left; simp

/-- HALT halts after its notice, or the sink refuses the notice (R176). -/
theorem serviceHalt_cases (s : State) :
    ((∀ n, s.io.sinkRoom = some n → Config.haltNotice.length ≤ n) ∧ serviceHalt s = .halt
      { s with io := { s.io with output := s.io.output ++ Config.haltNotice, sinkRoom := s.io.sinkRoom.map (· - Config.haltNotice.length) } }) ∨
    (∃ n, s.io.sinkRoom = some n ∧ n < Config.haltNotice.length ∧ serviceHalt s =
      .fail .outputFail { s.io with output := s.io.output ++ Config.haltNotice.take n, sinkRoom := some 0 }) := by
  unfold serviceHalt
  rcases outBytes_cases Config.haltNotice s.io with ⟨e, h⟩ | ⟨n, h, hl, e⟩ <;> rw [e]
  · exact .inl ⟨h, rfl⟩
  · exact .inr ⟨n, h, hl, rfl⟩

end Sys2Proof.Machine
end

