-- ==== Sys2Proof/Laws/Step.lean ====
section
/-! SUPPORT. What a step is, and what each instruction's meaning is in terms of the shared operations. -/

namespace Sys2Proof.Machine

theorem step_running (s : State) (running : s.runState = .running) : step s = exec (decodeWord s.fetch.ir) s.fetch := by
  simp [step, running]

theorem step_halted (s : State) (halted : s.runState = .halted) : step s = .next s := by
  simp [step, halted]

theorem step_fatal (s : State) (report : FatalReport) (fatal : s.runState = .fatal report) : step s = .next s := by
  simp [step, fatal]

/-- Everything a step can be. -/
theorem step_cases (s : State) :
    (s.runState = .running ∧ step s = exec (decodeWord s.fetch.ir) s.fetch) ∨ (s.runState ≠ .running ∧ step s = .next s) := by
  cases h : s.runState with
  | running => exact .inl ⟨rfl, step_running s h⟩
  | halted => exact .inr ⟨by simp, step_halted s h⟩
  | fatal report => exact .inr ⟨by simp, step_fatal s report h⟩

/-- An instruction placed by `withFetchWord` is the one the next step runs. -/
theorem withFetchWord_ir (s : State) (nbits w : Nat) :
    (s.withFetchWord nbits w).fetch.ir = BitVec.ofNat 16 (w % 2 ^ nbits) := by
  simp [State.withFetchWord, read_write]

variable (s : State)

theorem exec_addReg (dr a b : Reg) (u : BitVec 2) : exec (.addReg dr a u b) s = .next (s.define dr (s.reg a + s.reg b)) := rfl
theorem exec_addImm (dr a : Reg) (imm : BitVec 5) : exec (.addImm dr a imm) s = .next (s.define dr (s.reg a + sext imm)) := rfl
theorem exec_andReg (dr a b : Reg) (u : BitVec 2) : exec (.andReg dr a u b) s = .next (s.define dr (s.reg a &&& s.reg b)) := rfl
theorem exec_andImm (dr a : Reg) (imm : BitVec 5) : exec (.andImm dr a imm) s = .next (s.define dr (s.reg a &&& sext imm)) := rfl
theorem exec_not (dr a : Reg) (u : BitVec 6) : exec (.not dr a u) s = .next (s.define dr (~~~ s.reg a)) := rfl
theorem exec_ld (dr : Reg) (off : BitVec 9) : exec (.ld dr off) s = .next (s.define dr (s.mem.read (s.pcRelative off))) := rfl
theorem exec_ldi (dr : Reg) (off : BitVec 9) : exec (.ldi dr off) s = .next (s.define dr (s.mem.read (s.indirect off))) := rfl
theorem exec_ldr (dr base : Reg) (off : BitVec 6) : exec (.ldr dr base off) s = .next (s.define dr (s.mem.read (s.baseOffset base off))) := rfl
theorem exec_lea (dr : Reg) (off : BitVec 9) : exec (.lea dr off) s = .next (s.define dr (s.pcRelative off)) := rfl
theorem exec_st (sr : Reg) (off : BitVec 9) : exec (.st sr off) s = .next (s.store (s.pcRelative off) (s.reg sr)) := rfl
theorem exec_sti (sr : Reg) (off : BitVec 9) : exec (.sti sr off) s = .next (s.store (s.indirect off) (s.reg sr)) := rfl
theorem exec_str (sr base : Reg) (off : BitVec 6) : exec (.str sr base off) s = .next (s.store (s.baseOffset base off) (s.reg sr)) := rfl
theorem exec_jmp (hi : BitVec 3) (base : Reg) (lo : BitVec 6) : exec (.jmp hi base lo) s = .next (s.setPc (s.reg base)) := rfl
theorem exec_ret (hi : BitVec 3) (lo : BitVec 6) : exec (.ret hi lo) s = .next (s.setPc (s.reg 7)) := rfl
theorem exec_jsr (off : BitVec 11) : exec (.jsr off) s = .next (s.link.setPc (s.pcRelative off)) := rfl
theorem exec_jsrr (hi : BitVec 2) (base : Reg) (lo : BitVec 6) : exec (.jsrr hi base lo) s = .next (s.link.setPc (s.link.reg base)) := rfl
theorem exec_rti (u : BitVec 12) : exec (.rti u) s = .next (raiseFatal .illegalOpcode s s.io) := rfl
theorem exec_res (u : BitVec 12) : exec (.res u) s = .next (raiseFatal .illegalOpcode s s.io) := rfl
theorem exec_getc (u : BitVec 4) : exec (.getc u) s = .next (runService serviceGetc s) := rfl
theorem exec_out (u : BitVec 4) : exec (.out u) s = .next (runService serviceOut s) := rfl
theorem exec_puts (u : BitVec 4) : exec (.puts u) s = .next (runService servicePuts s) := rfl
theorem exec_inp (u : BitVec 4) : exec (.inp u) s = .next (runService serviceIn s) := rfl
theorem exec_putsp (u : BitVec 4) : exec (.putsp u) s = .next (runService servicePutsp s) := rfl
theorem exec_halt (u : BitVec 4) : exec (.halt u) s = .next (runService serviceHalt s) := rfl

/-- BR, taken or not (R140). -/
theorem exec_br (nzp : BitVec 3) (off : BitVec 9) :
    exec (.br nzp off) s = .next (if branchTaken nzp s.cond then s.setPc (s.pcRelative off) else s) := by
  simp only [exec, execBr]; split <;> rfl

/-- A vector selects a service or none (R160, R161). -/
theorem serviceOf_cases (v : BitVec 8) :
    (v = 0x20#8 ∧ serviceOf v = some serviceGetc) ∨ (v = 0x21#8 ∧ serviceOf v = some serviceOut) ∨
    (v = 0x22#8 ∧ serviceOf v = some servicePuts) ∨ (v = 0x23#8 ∧ serviceOf v = some serviceIn) ∨
    (v = 0x24#8 ∧ serviceOf v = some servicePutsp) ∨ (v = 0x25#8 ∧ serviceOf v = some serviceHalt) ∨
    (isServiceVector v = false ∧ serviceOf v = none) := by
  by_cases h0 : v = 0x20#8; · subst h0; exact .inl ⟨rfl, rfl⟩
  by_cases h1 : v = 0x21#8; · subst h1; exact .inr (.inl ⟨rfl, rfl⟩)
  by_cases h2 : v = 0x22#8; · subst h2; exact .inr (.inr (.inl ⟨rfl, rfl⟩))
  by_cases h3 : v = 0x23#8; · subst h3; exact .inr (.inr (.inr (.inl ⟨rfl, rfl⟩)))
  by_cases h4 : v = 0x24#8; · subst h4; exact .inr (.inr (.inr (.inr (.inl ⟨rfl, rfl⟩))))
  by_cases h5 : v = 0x25#8; · subst h5; exact .inr (.inr (.inr (.inr (.inr (.inl ⟨rfl, rfl⟩)))))
  refine .inr (.inr (.inr (.inr (.inr (.inr ?_)))))
  simp only [← BitVec.toNat_inj, BitVec.toNat_ofNat] at h0 h1 h2 h3 h4 h5
  constructor
  · simp only [isServiceVector, Bool.and_eq_false_iff, decide_eq_false_iff_not]; omega
  · unfold serviceOf; split <;> first | rfl | omega

/-- TRAP runs the service of its vector, or is fatal (R160, R161). -/
theorem exec_trap (u : BitVec 4) (v : BitVec 8) :
    exec (.trap u v) s = .next (match serviceOf v with
      | some service => runService service s
      | none => raiseFatal .unknownTrapVector s s.io) := by
  simp only [exec, execTrap]; cases serviceOf v <;> rfl

end Sys2Proof.Machine
end

