-- ==== Sys2Proof/Laws/Effects.lean ====
section
/-! SUPPORT. Everything one execution can do, said once: the inversion lemma of each service instruction and of `exec`.
Claims about all instructions follow from these by cases. -/

namespace Sys2Proof.Machine

/-- The channels after `bs` went out, all of it. -/
def wroteAll (bs : List Byte) (io : Channels) : Channels :=
  { io with output := io.output ++ bs, sinkRoom := io.sinkRoom.map (· - bs.length) }

/-- The channels after the sink took `n` bytes of `bs` and refused the next. -/
def wrotePart (bs : List Byte) (n : Nat) (io : Channels) : Channels :=
  { io with output := io.output ++ bs.take n, sinkRoom := some 0 }

/-- The channels after the first input byte was taken. -/
def took (rest : List Byte) (io : Channels) : Channels := { io with input := rest }

/-- The state after a service that ended, with the channels it left. -/
def ended (t : State) (io : Channels) : State := { t with io := io, waiting := false }

/-- The state in the middle of an instruction: as before the fetch, but for the channels and the wait. -/
def midway (s : State) (io : Channels) (waiting : Bool) : State := { s.unfetch io with waiting := waiting }

@[simp] theorem ended_gpr (t : State) (io : Channels) : (ended t io).gpr = t.gpr := rfl
@[simp] theorem ended_pc (t : State) (io : Channels) : (ended t io).pc = t.pc := rfl
@[simp] theorem ended_cond (t : State) (io : Channels) : (ended t io).cond = t.cond := rfl
@[simp] theorem ended_runState (t : State) (io : Channels) : (ended t io).runState = t.runState := rfl
@[simp] theorem ended_ir (t : State) (io : Channels) : (ended t io).ir = t.ir := rfl
@[simp] theorem ended_fetchPc (t : State) (io : Channels) : (ended t io).fetchPc = t.fetchPc := rfl
@[simp] theorem ended_mem (t : State) (io : Channels) : (ended t io).mem = t.mem := rfl
@[simp] theorem ended_io (t : State) (io : Channels) : (ended t io).io = io := rfl
@[simp] theorem ended_waiting (t : State) (io : Channels) : (ended t io).waiting = false := rfl
@[simp] theorem reg_ended (t : State) (io : Channels) (r : Reg) : (ended t io).reg r = t.reg r := rfl
@[simp] theorem midway_gpr (s : State) (io : Channels) (w : Bool) : (midway s io w).gpr = s.gpr := rfl
@[simp] theorem midway_pc (s : State) (io : Channels) (w : Bool) : (midway s io w).pc = s.fetchPc := rfl
@[simp] theorem midway_cond (s : State) (io : Channels) (w : Bool) : (midway s io w).cond = s.cond := rfl
@[simp] theorem midway_runState (s : State) (io : Channels) (w : Bool) : (midway s io w).runState = s.runState := rfl
@[simp] theorem midway_ir (s : State) (io : Channels) (w : Bool) : (midway s io w).ir = s.ir := rfl
@[simp] theorem midway_fetchPc (s : State) (io : Channels) (w : Bool) : (midway s io w).fetchPc = s.fetchPc := rfl
@[simp] theorem midway_mem (s : State) (io : Channels) (w : Bool) : (midway s io w).mem = s.mem := rfl
@[simp] theorem midway_io (s : State) (io : Channels) (w : Bool) : (midway s io w).io = io := rfl
@[simp] theorem midway_waiting (s : State) (io : Channels) (w : Bool) : (midway s io w).waiting = w := rfl
@[simp] theorem reg_midway (s : State) (io : Channels) (w : Bool) (r : Reg) : (midway s io w).reg r = s.reg r := rfl

/-! ### The service instructions -/

theorem getc_effect (s : State) :
    (∃ b rest, s.io.input = b :: rest ∧
      runService serviceGetc s = ended ((trapEntry s).setReg 0 (zextByte b)) (took rest s.io)) ∨
    (s.io.input = [] ∧ s.io.inputEnded = true ∧ runService serviceGetc s = raiseFatal (.ioFailure .inputEos) s s.io) ∨
    (s.io.input = [] ∧ s.io.inputEnded = false ∧ runService serviceGetc s = midway s s.io true) := by
  rcases serviceGetc_cases (trapEntry s) with ⟨b, r, h, e⟩ | ⟨h, h', e⟩ | ⟨h, h', e⟩
  · exact .inl ⟨b, r, h, by rw [runService, e]; rfl⟩
  · exact .inr (.inl ⟨h, h', by rw [runService, e]; rfl⟩)
  · exact .inr (.inr ⟨h, h', by rw [runService, e]; rfl⟩)

theorem out_effect (s : State) :
    ((∀ n, s.io.sinkRoom = some n → 1 ≤ n) ∧
      runService serviceOut s = ended (trapEntry s) (wroteAll [lowByte ((trapEntry s).reg 0)] s.io)) ∨
    (∃ n, s.io.sinkRoom = some n ∧ n < 1 ∧ runService serviceOut s =
      raiseFatal (.ioFailure .outputFail) s (wrotePart [lowByte ((trapEntry s).reg 0)] n s.io)) := by
  rcases serviceWrite_cases [lowByte ((trapEntry s).reg 0)] (trapEntry s) with ⟨e, h⟩ | ⟨n, h, h', e⟩
  · exact .inl ⟨h, by rw [runService, serviceOut, e]; rfl⟩
  · exact .inr ⟨n, h, h', by rw [runService, serviceOut, e]; rfl⟩

theorem string_effect (bytes : Word → List Byte) (s : State) :
    ∃ bs found, scanString bytes s.mem Config.memWords ((trapEntry s).reg 0) = (bs, found) ∧
    ((found = true ∧ (∀ n, s.io.sinkRoom = some n → bs.length ≤ n) ∧
        runService (serviceString bytes) s = ended (trapEntry s) (wroteAll bs s.io)) ∨
     (found = false ∧ (∀ n, s.io.sinkRoom = some n → bs.length ≤ n) ∧
        runService (serviceString bytes) s = midway s (wroteAll bs s.io) false) ∨
     (∃ n, s.io.sinkRoom = some n ∧ n < bs.length ∧
        runService (serviceString bytes) s = raiseFatal (.ioFailure .outputFail) s (wrotePart bs n s.io))) := by
  obtain ⟨bs, found, scan, h⟩ := serviceString_cases bytes (trapEntry s)
  refine ⟨bs, found, scan, ?_⟩
  rcases h with ⟨hf, hr, e⟩ | ⟨hf, hr, e⟩ | ⟨n, hn, hl, e⟩
  · exact .inl ⟨hf, hr, by rw [runService, e]; rfl⟩
  · exact .inr (.inl ⟨hf, hr, by rw [runService, e]; rfl⟩)
  · exact .inr (.inr ⟨n, hn, hl, by rw [runService, e]; rfl⟩)

/-- PUTS's bytes of `k` cells, as the claims name them. -/
theorem flatMap_putsBytes (m : Memory) (a : Word) (k : Nat) :
    (List.range k).flatMap (fun j => putsBytes (m.read (a + BitVec.ofNat 16 j))) = lowBytes m a k := by
  unfold lowBytes putsBytes
  induction List.range k <;> simp_all [lowByte]

/-- PUTSP's bytes of `k` cells, as the claims name them. -/
theorem flatMap_putspBytes (m : Memory) (a : Word) (k : Nat) :
    (List.range k).flatMap (fun j => putspBytes (m.read (a + BitVec.ofNat 16 j))) = packedBytes m a k := by
  unfold packedBytes
  congr 1; funext j
  simp only [putspBytes, lowByte, highByte]; split <;> simp_all

/-- A string with an end: its bytes go out and the service is done, or the sink fails within them. -/
theorem string_effect_ends (bytes : Word → List Byte) (s : State) (k : Nat) (h : StringAt s.mem (s.reg 0) k) (bs : List Byte)
    (hb : (List.range k).flatMap (fun j => bytes (s.mem.read (s.reg 0 + BitVec.ofNat 16 j))) = bs) :
    ((∀ n, s.io.sinkRoom = some n → bs.length ≤ n) ∧
      runService (serviceString bytes) s = ended (trapEntry s) (wroteAll bs s.io)) ∨
    (∃ n, s.io.sinkRoom = some n ∧ n < bs.length ∧
      runService (serviceString bytes) s = raiseFatal (.ioFailure .outputFail) s (wrotePart bs n s.io)) := by
  obtain ⟨bs', found, scan, c⟩ := string_effect bytes s
  rw [show (trapEntry s).reg 0 = s.reg 0 by simp [reg_trapEntry], scanString_ends bytes s.mem k _ _ h.1 h.2.1 h.2.2, hb] at scan
  obtain ⟨rfl, rfl⟩ := Prod.mk.inj scan
  simpa using c

/-- A string with no end: a lap goes out and the service is where it began, or the sink fails within the lap. -/
theorem string_effect_endless (bytes : Word → List Byte) (s : State) (h : ∀ a : Word, s.mem.read a ≠ 0x0000#16) (bs : List Byte)
    (hb : (List.range Config.memWords).flatMap (fun j => bytes (s.mem.read (s.reg 0 + BitVec.ofNat 16 j))) = bs) :
    ((∀ n, s.io.sinkRoom = some n → bs.length ≤ n) ∧
      runService (serviceString bytes) s = midway s (wroteAll bs s.io) false) ∨
    (∃ n, s.io.sinkRoom = some n ∧ n < bs.length ∧
      runService (serviceString bytes) s = raiseFatal (.ioFailure .outputFail) s (wrotePart bs n s.io)) := by
  obtain ⟨bs', found, scan, c⟩ := string_effect bytes s
  rw [show (trapEntry s).reg 0 = s.reg 0 by simp [reg_trapEntry], scanString_endless bytes s.mem h, hb] at scan
  obtain ⟨rfl, rfl⟩ := Prod.mk.inj scan
  simpa using c

/-- The channels after IN's prompt. -/
def prompted (s : State) : Channels := if s.waiting then s.io else wroteAll Config.inPrompt s.io

theorem in_effect (s : State) :
    ((s.waiting = false → ∀ n, s.io.sinkRoom = some n → Config.inPrompt.length ≤ n) ∧
      ((∃ b rest, s.io.input = b :: rest ∧
        runService serviceIn s = ended ((trapEntry s).define 0 (zextByte b)) (took rest (prompted s))) ∨
       (s.io.input = [] ∧ s.io.inputEnded = true ∧
        runService serviceIn s = raiseFatal (.ioFailure .inputEos) s (prompted s)) ∨
       (s.io.input = [] ∧ s.io.inputEnded = false ∧ runService serviceIn s = midway s (prompted s) true))) ∨
    (s.waiting = false ∧ ∃ n, s.io.sinkRoom = some n ∧ n < Config.inPrompt.length ∧
      runService serviceIn s = raiseFatal (.ioFailure .outputFail) s (wrotePart Config.inPrompt n s.io)) := by
  rcases serviceIn_cases (trapEntry s) with ⟨w, e⟩ | ⟨w, hr, e⟩ | ⟨w, n, hn, hl, e⟩
  · have hp : prompted s = s.io := if_pos w
    refine .inl ⟨fun h => absurd w (by simp [h]), ?_⟩
    rw [hp]
    rcases readDefiningR0_cases (trapEntry s) s.io with ⟨b, r, h, e'⟩ | ⟨h, h', e'⟩ | ⟨h, h', e'⟩
    · exact .inl ⟨b, r, h, by rw [runService, e, trapEntry_io, e']; rfl⟩
    · exact .inr (.inl ⟨h, h', by rw [runService, e, trapEntry_io, e']⟩)
    · exact .inr (.inr ⟨h, h', by rw [runService, e, trapEntry_io, e']; rfl⟩)
  · have hp : prompted s = wroteAll Config.inPrompt s.io := if_neg (by rw [← trapEntry_waiting, w]; decide)
    refine .inl ⟨fun _ => hr, ?_⟩
    rw [hp]
    rcases readDefiningR0_cases (trapEntry s) (wroteAll Config.inPrompt s.io) with ⟨b, r, h, e'⟩ | ⟨h, h', e'⟩ | ⟨h, h', e'⟩
    · exact .inl ⟨b, r, h, by rw [runService, e]; unfold wroteAll at e'; rw [trapEntry_io, e']; rfl⟩
    · exact .inr (.inl ⟨h, h', by rw [runService, e]; unfold wroteAll at e'; rw [trapEntry_io, e']; rfl⟩)
    · exact .inr (.inr ⟨h, h', by rw [runService, e]; unfold wroteAll at e'; rw [trapEntry_io, e']; rfl⟩)
  · exact .inr ⟨w, n, hn, hl, by rw [runService, e]; rfl⟩

theorem halt_effect (s : State) :
    ((∀ n, s.io.sinkRoom = some n → Config.haltNotice.length ≤ n) ∧ runService serviceHalt s =
      { ended (trapEntry s) (wroteAll Config.haltNotice s.io) with runState := .halted }) ∨
    (∃ n, s.io.sinkRoom = some n ∧ n < Config.haltNotice.length ∧
      runService serviceHalt s = raiseFatal (.ioFailure .outputFail) s (wrotePart Config.haltNotice n s.io)) := by
  rcases serviceHalt_cases (trapEntry s) with ⟨h, e⟩ | ⟨n, h, h', e⟩
  · exact .inl ⟨h, by rw [runService, e]; rfl⟩
  · exact .inr ⟨n, h, h', by rw [runService, e]; rfl⟩

/-! ### exec -/

/-- What executing an instruction the decoder can give does to the state fetch left. -/
inductive Effect (s : State) : Instr → State → Prop where
  | define (i : Instr) (dr : Reg) (v : Word) (d : defined i = some dr) : Effect s i (s.define dr v)
  | st (sr : Reg) (off : BitVec 9) : Effect s (.st sr off) (s.store (s.pcRelative off) (s.reg sr))
  | sti (sr : Reg) (off : BitVec 9) : Effect s (.sti sr off) (s.store (s.indirect off) (s.reg sr))
  | str (sr base : Reg) (off : BitVec 6) : Effect s (.str sr base off) (s.store (s.baseOffset base off) (s.reg sr))
  | jump (i : Instr) (target : Word) (c : transfersControl i = true) (d : defined i = none) : Effect s i (s.setPc target)
  | call (i : Instr) (target : Word) (c : transfersControl i = true) (l : links i = true) (d : defined i = none) :
      Effect s i (s.link.setPc target)
  | rti (u : BitVec 12) : Effect s (.rti u) (raiseFatal .illegalOpcode s s.io)
  | res (u : BitVec 12) : Effect s (.res u) (raiseFatal .illegalOpcode s s.io)
  | unknown (u : BitVec 4) (v : BitVec 8) (n : isServiceVector v = false) :
      Effect s (.trap u v) (raiseFatal .unknownTrapVector s s.io)
  | getc (u : BitVec 4) : Effect s (.getc u) (runService serviceGetc s)
  | out (u : BitVec 4) : Effect s (.out u) (runService serviceOut s)
  | puts (u : BitVec 4) : Effect s (.puts u) (runService servicePuts s)
  | inp (u : BitVec 4) : Effect s (.inp u) (runService serviceIn s)
  | putsp (u : BitVec 4) : Effect s (.putsp u) (runService servicePutsp s)
  | halt (u : BitVec 4) : Effect s (.halt u) (runService serviceHalt s)

/-- Executing a decoded word answers a next state, and has one of those effects. -/
theorem exec_effect (w : Word) (s : State) : ∃ t, exec (decodeWord w) s = .next t ∧ Effect s (decodeWord w) t := by
  cases h : decodeWord w with
  | br nzp off =>
    refine ⟨_, exec_br s nzp off, ?_⟩
    split
    · exact .jump _ _ rfl rfl
    · exact .jump (.br nzp off) s.pc rfl rfl
  | addReg dr a u b => exact ⟨_, rfl, .define _ _ _ rfl⟩
  | addImm dr a imm => exact ⟨_, rfl, .define _ _ _ rfl⟩
  | ld dr off => exact ⟨_, rfl, .define _ _ _ rfl⟩
  | st sr off => exact ⟨_, rfl, .st sr off⟩
  | jsrr hi base lo => exact ⟨_, rfl, .call _ _ rfl rfl rfl⟩
  | jsr off => exact ⟨_, rfl, .call _ _ rfl rfl rfl⟩
  | andReg dr a u b => exact ⟨_, rfl, .define _ _ _ rfl⟩
  | andImm dr a imm => exact ⟨_, rfl, .define _ _ _ rfl⟩
  | ldr dr base off => exact ⟨_, rfl, .define _ _ _ rfl⟩
  | str sr base off => exact ⟨_, rfl, .str sr base off⟩
  | rti u => exact ⟨_, rfl, .rti u⟩
  | not dr sr u => exact ⟨_, rfl, .define _ _ _ rfl⟩
  | ldi dr off => exact ⟨_, rfl, .define _ _ _ rfl⟩
  | sti sr off => exact ⟨_, rfl, .sti sr off⟩
  | jmp hi base lo => exact ⟨_, rfl, .jump _ _ rfl rfl⟩
  | res u => exact ⟨_, rfl, .res u⟩
  | lea dr off => exact ⟨_, rfl, .define _ _ _ rfl⟩
  | trap u v =>
    have n := (decodeWord_trap h).2.2
    refine ⟨_, exec_trap s u v, ?_⟩
    rcases serviceOf_cases v with ⟨rfl, _⟩ | ⟨rfl, _⟩ | ⟨rfl, _⟩ | ⟨rfl, _⟩ | ⟨rfl, _⟩ | ⟨rfl, _⟩ | ⟨_, e⟩
    all_goals first | exact absurd n (by decide) | skip
    rw [e]; exact .unknown u v n
  | ret hi lo => exact ⟨_, rfl, .jump _ _ rfl rfl⟩
  | getc u => exact ⟨_, rfl, .getc u⟩
  | out u => exact ⟨_, rfl, .out u⟩
  | puts u => exact ⟨_, rfl, .puts u⟩
  | inp u => exact ⟨_, rfl, .inp u⟩
  | putsp u => exact ⟨_, rfl, .putsp u⟩
  | halt u => exact ⟨_, rfl, .halt u⟩

/-- A step of a running machine has one of those effects on the fetched state. -/
theorem step_effect {s t : State} (running : s.runState = .running) (h : step s = .next t) :
    Effect s.fetch (decodeWord (s.mem.read s.pc)) t := by
  obtain ⟨t', e, eff⟩ := exec_effect s.fetch.ir s.fetch
  rw [step_running s running, e] at h
  cases h; exact eff

/-! ### The shapes of a next state -/

/-- The channels moved forward from `io` to `io'`: output only grew, the end of input stayed as it was. -/
def Forward (io io' : Channels) : Prop := io.output <+: io'.output ∧ io'.inputEnded = io.inputEnded

/-- The instruction stores `v` at `a` (R125 to R127). -/
def StoresAt (s : State) (i : Instr) (a v : Word) : Prop :=
  (∃ sr off, i = .st sr off ∧ a = s.pcRelative off ∧ v = s.reg sr) ∨
  (∃ sr off, i = .sti sr off ∧ a = s.indirect off ∧ v = s.reg sr) ∨
  (∃ sr base off, i = .str sr base off ∧ a = s.baseOffset base off ∧ v = s.reg sr)

/-- An instruction that stores defines no register and does not wait. -/
theorem storesAt_kind {s : State} {i : Instr} {a v : Word} (h : StoresAt s i a v) :
    defined i = none ∧ waits i = false ∧ transfersControl i = false := by
  rcases h with ⟨sr, off, rfl, _⟩ | ⟨sr, off, rfl, _⟩ | ⟨sr, base, off, rfl, _⟩ <;> exact ⟨rfl, rfl, rfl⟩

/-- An instruction that defines a register through its DR field does not wait and transfers no control. -/
theorem defined_kind {i : Instr} {dr : Reg} (h : defined i = some dr) : waits i = false ∧ transfersControl i = false := by
  cases i <;> simp_all [defined, waits, transfersControl]

/-- A control transfer does not wait. -/
theorem transfers_kind {i : Instr} (h : transfersControl i = true) : waits i = false := by
  cases i <;> simp_all [waits, transfersControl]

/-- The shape of the state an instruction leaves, for claims that do not ask which value was written or which bytes went
out. `s` is the state fetch left. -/
inductive Shape (s : State) (i : Instr) : State → Prop where
  | define (dr : Reg) (v : Word) (d : defined i = some dr) : Shape s i (s.define dr v)
  | store (a v : Word) (k : StoresAt s i a v) : Shape s i (s.store a v)
  | jump (p : Word) (c : transfersControl i = true) (d : defined i = none) : Shape s i (s.setPc p)
  | call (p : Word) (c : transfersControl i = true) (l : links i = true) (d : defined i = none) : Shape s i (s.link.setPc p)
  | fatal (why : Cause) (io : Channels) (d : defined i = none) (f : Forward s.io io) (k : io.input = s.io.input) :
      Shape s i (raiseFatal why s io)
  | wait (io : Channels) (d : defined i = none) (f : Forward s.io io) (k : io.input = s.io.input) (w : waits i = true)
      (empty : s.io.input = []) (opened : s.io.inputEnded = false) : Shape s i (midway s io true)
  | again (io : Channels) (d : defined i = none) (f : Forward s.io io) (k : io.input = s.io.input)
      (w : writesString i = true) : Shape s i (midway s io false)
  | wrote (io : Channels) (d : defined i = none) (l : links i = true) (w : waits i = false) (f : Forward s.io io) (k : io.input = s.io.input) :
      Shape s i (ended (trapEntry s) io)
  | halted (io : Channels) (u : BitVec 4) (h : i = .halt u) (f : Forward s.io io) (k : io.input = s.io.input) :
      Shape s i { ended (trapEntry s) io with runState := .halted }
  | got (b : Byte) (io : Channels) (u : BitVec 4) (h : i = .getc u) (f : Forward s.io io)
      (k : s.io.input = b :: io.input) : Shape s i (ended ((trapEntry s).setReg 0 (zextByte b)) io)
  | read (b : Byte) (io : Channels) (u : BitVec 4) (h : i = .inp u) (f : Forward s.io io)
      (k : s.io.input = b :: io.input) : Shape s i (ended ((trapEntry s).define 0 (zextByte b)) io)

theorem forward_refl (io : Channels) : Forward io io := ⟨List.prefix_rfl, rfl⟩
theorem forward_wroteAll (bs : List Byte) (io : Channels) : Forward io (wroteAll bs io) := ⟨List.prefix_append _ _, rfl⟩
theorem forward_wrotePart (bs : List Byte) (n : Nat) (io : Channels) : Forward io (wrotePart bs n io) := ⟨List.prefix_append _ _, rfl⟩

theorem forward_prompted (s : State) : Forward s.io (prompted s) := by
  unfold prompted; split
  · exact forward_refl _
  · exact forward_wroteAll _ _

theorem prompted_input (s : State) : (prompted s).input = s.io.input := by unfold prompted; split <;> rfl

theorem string_shape (bytes : Word → List Byte) (s : State) (i : Instr) (w : writesString i = true) (l : links i = true)
    (d : defined i = none) (r : waits i = false) : Shape s i (runService (serviceString bytes) s) := by
  obtain ⟨bs, found, _, ⟨_, _, e⟩ | ⟨_, _, e⟩ | ⟨n, _, _, e⟩⟩ := string_effect bytes s <;> rw [e]
  · exact .wrote _ d l r (forward_wroteAll _ _) rfl
  · exact .again _ d (forward_wroteAll _ _) rfl w
  · exact .fatal _ _ d (forward_wrotePart _ _ _) rfl

/-- Every effect has one of the shapes. -/
theorem effect_shape {s t : State} {i : Instr} (e : Effect s i t) : Shape s i t := by
  cases e with
  | define i dr v d => exact .define dr v d
  | st sr off => exact .store _ _ (.inl ⟨sr, off, rfl, rfl, rfl⟩)
  | sti sr off => exact .store _ _ (.inr (.inl ⟨sr, off, rfl, rfl, rfl⟩))
  | str sr base off => exact .store _ _ (.inr (.inr ⟨sr, base, off, rfl, rfl, rfl⟩))
  | jump i p c d => exact .jump p c d
  | call i p c l d => exact .call p c l d
  | rti u => exact .fatal _ _ rfl (forward_refl _) rfl
  | res u => exact .fatal _ _ rfl (forward_refl _) rfl
  | unknown u v n => exact .fatal _ _ rfl (forward_refl _) rfl
  | getc u =>
    rcases getc_effect s with ⟨b, r, h, e⟩ | ⟨_, _, e⟩ | ⟨h, h', e⟩ <;> rw [e]
    · exact .got b _ u rfl (forward_refl s.io) h
    · exact .fatal _ _ rfl (forward_refl _) rfl
    · exact .wait _ rfl (forward_refl _) rfl rfl h h'
  | out u =>
    rcases out_effect s with ⟨_, e⟩ | ⟨n, _, _, e⟩ <;> rw [e]
    · exact .wrote _ rfl rfl rfl (forward_wroteAll _ _) rfl
    · exact .fatal _ _ rfl (forward_wrotePart _ _ _) rfl
  | puts u => exact string_shape putsBytes s _ rfl rfl rfl rfl
  | inp u =>
    rcases in_effect s with ⟨_, ⟨b, r, h, e⟩ | ⟨_, _, e⟩ | ⟨h, h', e⟩⟩ | ⟨_, n, _, _, e⟩ <;> rw [e]
    · exact .read b _ u rfl (forward_prompted s) h
    · exact .fatal _ _ rfl (forward_prompted s) (prompted_input s)
    · exact .wait _ rfl (forward_prompted s) (prompted_input s) rfl h h'
    · exact .fatal _ _ rfl (forward_wrotePart _ _ _) rfl
  | putsp u => exact string_shape putspBytes s _ rfl rfl rfl rfl
  | halt u =>
    rcases halt_effect s with ⟨_, e⟩ | ⟨n, _, _, e⟩ <;> rw [e]
    · exact .halted _ u rfl (forward_wroteAll _ _) rfl
    · exact .fatal _ _ rfl (forward_wrotePart _ _ _) rfl

/-- A step of a running machine has one of the shapes. -/
theorem step_shape {s t : State} (running : s.runState = .running) (h : step s = .next t) :
    Shape s.fetch (decodeWord (s.mem.read s.pc)) t :=
  effect_shape (step_effect running h)

end Sys2Proof.Machine
end

