-- ==== Sys2Proof/Laws/PerInstr.lean ====
section
/-! SUPPORT. Statements about every instruction as syntax, one lemma per constructor. -/

namespace Sys2Proof.Laws

/-- An instruction's word is its row's: the row's fixed bits stand in it as the table gives them. -/
def EncodeRow.Statement (i : Instr) : Prop := encode i &&& i.row.mask = i.row.pattern

/-- Two words are equal when their sixteen bits are. -/
theorem encodeRow_bits {v w : Word} (bits : ∀ i, i < 16 → v.getLsbD i = w.getLsbD i) : v = w :=
  BitVec.eq_of_getLsbD_eq bits

theorem EncodeRow.br (nzp : BitVec 3) (offset9 : BitVec 9) : EncodeRow.Statement (.br nzp offset9) := encodeRow_bits fun i hi => by
  simp only [encode, Instr.row]; interval_cases i <;> simp

theorem EncodeRow.addReg (dr sr1 : Reg) (unused : BitVec 2) (sr2 : Reg) : EncodeRow.Statement (.addReg dr sr1 unused sr2) := encodeRow_bits fun i hi => by
  simp only [encode, Instr.row, placeReg]; interval_cases i <;> simp

theorem EncodeRow.addImm (dr sr1 : Reg) (imm5 : BitVec 5) : EncodeRow.Statement (.addImm dr sr1 imm5) := encodeRow_bits fun i hi => by
  simp only [encode, Instr.row, placeReg]; interval_cases i <;> simp

theorem EncodeRow.ld (dr : Reg) (offset9 : BitVec 9) : EncodeRow.Statement (.ld dr offset9) := encodeRow_bits fun i hi => by
  simp only [encode, Instr.row, placeReg]; interval_cases i <;> simp

theorem EncodeRow.st (sr : Reg) (offset9 : BitVec 9) : EncodeRow.Statement (.st sr offset9) := encodeRow_bits fun i hi => by
  simp only [encode, Instr.row, placeReg]; interval_cases i <;> simp

theorem EncodeRow.jsrr (unusedHi : BitVec 2) (base : Reg) (unusedLo : BitVec 6) : EncodeRow.Statement (.jsrr unusedHi base unusedLo) := encodeRow_bits fun i hi => by
  simp only [encode, Instr.row, placeReg]; interval_cases i <;> simp

theorem EncodeRow.jsr (offset11 : BitVec 11) : EncodeRow.Statement (.jsr offset11) := encodeRow_bits fun i hi => by
  simp only [encode, Instr.row]; interval_cases i <;> simp

theorem EncodeRow.andReg (dr sr1 : Reg) (unused : BitVec 2) (sr2 : Reg) : EncodeRow.Statement (.andReg dr sr1 unused sr2) := encodeRow_bits fun i hi => by
  simp only [encode, Instr.row, placeReg]; interval_cases i <;> simp

theorem EncodeRow.andImm (dr sr1 : Reg) (imm5 : BitVec 5) : EncodeRow.Statement (.andImm dr sr1 imm5) := encodeRow_bits fun i hi => by
  simp only [encode, Instr.row, placeReg]; interval_cases i <;> simp

theorem EncodeRow.ldr (dr base : Reg) (offset6 : BitVec 6) : EncodeRow.Statement (.ldr dr base offset6) := encodeRow_bits fun i hi => by
  simp only [encode, Instr.row, placeReg]; interval_cases i <;> simp

theorem EncodeRow.str (sr base : Reg) (offset6 : BitVec 6) : EncodeRow.Statement (.str sr base offset6) := encodeRow_bits fun i hi => by
  simp only [encode, Instr.row, placeReg]; interval_cases i <;> simp

theorem EncodeRow.rti (unused : BitVec 12) : EncodeRow.Statement (.rti unused) := encodeRow_bits fun i hi => by
  simp only [encode, Instr.row]; interval_cases i <;> simp

theorem EncodeRow.not (dr sr : Reg) (unused : BitVec 6) : EncodeRow.Statement (.not dr sr unused) := encodeRow_bits fun i hi => by
  simp only [encode, Instr.row, placeReg]; interval_cases i <;> simp

theorem EncodeRow.ldi (dr : Reg) (offset9 : BitVec 9) : EncodeRow.Statement (.ldi dr offset9) := encodeRow_bits fun i hi => by
  simp only [encode, Instr.row, placeReg]; interval_cases i <;> simp

theorem EncodeRow.sti (sr : Reg) (offset9 : BitVec 9) : EncodeRow.Statement (.sti sr offset9) := encodeRow_bits fun i hi => by
  simp only [encode, Instr.row, placeReg]; interval_cases i <;> simp

theorem EncodeRow.jmp (unusedHi : BitVec 3) (base : Reg) (unusedLo : BitVec 6) : EncodeRow.Statement (.jmp unusedHi base unusedLo) := encodeRow_bits fun i hi => by
  simp only [encode, Instr.row, placeReg]; interval_cases i <;> simp

theorem EncodeRow.res (unused : BitVec 12) : EncodeRow.Statement (.res unused) := encodeRow_bits fun i hi => by
  simp only [encode, Instr.row]; interval_cases i <;> simp

theorem EncodeRow.lea (dr : Reg) (offset9 : BitVec 9) : EncodeRow.Statement (.lea dr offset9) := encodeRow_bits fun i hi => by
  simp only [encode, Instr.row, placeReg]; interval_cases i <;> simp

theorem EncodeRow.trap (unused : BitVec 4) (vector : BitVec 8) : EncodeRow.Statement (.trap unused vector) := encodeRow_bits fun i hi => by
  simp only [encode, Instr.row]; interval_cases i <;> simp

theorem EncodeRow.ret (unusedHi : BitVec 3) (unusedLo : BitVec 6) : EncodeRow.Statement (.ret unusedHi unusedLo) := encodeRow_bits fun i hi => by
  simp only [encode, Instr.row]; interval_cases i <;> simp

theorem EncodeRow.getc (unused : BitVec 4) : EncodeRow.Statement (.getc unused) := encodeRow_bits fun i hi => by
  simp only [encode, Instr.row]; interval_cases i <;> simp

theorem EncodeRow.out (unused : BitVec 4) : EncodeRow.Statement (.out unused) := encodeRow_bits fun i hi => by
  simp only [encode, Instr.row]; interval_cases i <;> simp

theorem EncodeRow.puts (unused : BitVec 4) : EncodeRow.Statement (.puts unused) := encodeRow_bits fun i hi => by
  simp only [encode, Instr.row]; interval_cases i <;> simp

theorem EncodeRow.inp (unused : BitVec 4) : EncodeRow.Statement (.inp unused) := encodeRow_bits fun i hi => by
  simp only [encode, Instr.row]; interval_cases i <;> simp

theorem EncodeRow.putsp (unused : BitVec 4) : EncodeRow.Statement (.putsp unused) := encodeRow_bits fun i hi => by
  simp only [encode, Instr.row]; interval_cases i <;> simp

theorem EncodeRow.halt (unused : BitVec 4) : EncodeRow.Statement (.halt unused) := encodeRow_bits fun i hi => by
  simp only [encode, Instr.row]; interval_cases i <;> simp

end Sys2Proof.Laws
end

