-- ==== Sys2Proof/Tests/Slice0.lean ====
section
/-! SUPPORT. The model's own tests. Expected values come from spec/95_test_vectors.md (the section is named at each group)
or are worked out by hand from the rules; the prompt and the notice are opaque, so no test fixes their bytes. The witnesses
at the end show states and operands that meet the hypotheses of the statements in Certificates/Slice0/Obligations.lean. -/

namespace Sys2Proof.Tests

open Sys2Proof Sys2Proof.Machine

/-! ### Helpers -/

/-- A state with the given registers, COND, PC and memory cells (addresses rising), everything else as after reset. -/
def start (regs : List (Reg × Word)) (cond pc : Word) (cells : Memory) : State :=
  regs.foldl (fun s r => s.setReg r.1 r.2) { State.reset with cond := cond, pc := pc, mem := cells }

/-- The state after one step. -/
def after (s : State) : Option State :=
  match step s with
  | .next t => some t
  | .fault _ => none
  | .refused _ => none

/-- One register, COND and PC after a step. -/
def regView (r : Reg) (s : State) : Option (Word × Word × Word) := (after s).map (fun t => (t.reg r, t.cond, t.pc))

/-- One cell, COND and PC after a step. -/
def cellView (a : Word) (s : State) : Option (Word × Word × Word) := (after s).map (fun t => (t.mem.read a, t.cond, t.pc))

/-- R0, R7, COND, PC and run_state after a step. -/
def trapView (s : State) : Option (Word × Word × Word × Word × RunState) :=
  (after s).map (fun t => (t.reg 0, t.reg 7, t.cond, t.pc, t.runState))

/-- The bytes a step wrote. -/
def outputView (s : State) : Option (List Byte) := (after s).map (fun t => t.io.output)

/-- A state whose INPUT holds the given bytes. -/
def withInput (bytes : List Byte) (s : State) : State := { s with io := { s.io with input := bytes } }

/-- A state whose sink takes `n` more bytes. -/
def withRoom (n : Nat) (s : State) : State := { s with io := { s.io with sinkRoom := some n } }

/-! ### WellFormed (smoke): what has a row of its own is refused under its base row -/

theorem test_wellFormed_refuses_jmp_r7 : (Instr.jmp 0 7 0).wellFormed = false := by decide
theorem test_wellFormed_refuses_trap_20 : (Instr.trap 0 0x20).wellFormed = false := by decide
theorem test_wellFormed_refuses_trap_25 : (Instr.trap 0xF 0x25).wellFormed = false := by decide
theorem test_wellFormed_takes_trap_1F : (Instr.trap 0 0x1F).wellFormed = true := by decide
theorem test_wellFormed_takes_trap_26 : (Instr.trap 0 0x26).wellFormed = true := by decide
theorem test_wellFormed_takes_jmp_r6 : (Instr.jmp 7 6 0x3F).wellFormed = true := by decide

/-! ### Decode: words written out from the formats R66 to R75 and the words of 95_test_vectors.md -/

theorem test_decode_br : decodeWord 0b0000_001_111111101 = .br 0b001 0x1FD := by decide
theorem test_decode_addReg : decodeWord 0b0001_000_001_0_00_010 = .addReg 0 1 0 2 := by decide
theorem test_decode_addReg_unused : decodeWord 0b0001_000_001_0_11_010 = .addReg 0 1 3 2 := by decide
theorem test_decode_addImm : decodeWord 0b0001_101_110_1_10000 = .addImm 5 6 0x10 := by decide
theorem test_decode_ld : decodeWord 0b0010_001_100000000 = .ld 1 0x100 := by decide
theorem test_decode_st : decodeWord 0b0011_110_000000001 = .st 6 1 := by decide
theorem test_decode_jsrr : decodeWord 0b0100_0_10_011_000001 = .jsrr 2 3 1 := by decide
theorem test_decode_jsr : decodeWord 0b0100_1_10000000010 = .jsr 0x402 := by decide
theorem test_decode_andReg : decodeWord 0b0101_011_001_0_00_010 = .andReg 3 1 0 2 := by decide
theorem test_decode_andImm : decodeWord 0b0101_111_110_1_11110 = .andImm 7 6 0x1E := by decide
theorem test_decode_ldr : decodeWord 0b0110_000_001_100000 = .ldr 0 1 0x20 := by decide
theorem test_decode_str : decodeWord 0b0111_010_001_111111 = .str 2 1 0x3F := by decide
theorem test_decode_rti : decodeWord 0b1000_100000000001 = .rti 0x801 := by decide
theorem test_decode_not : decodeWord 0b1001_111_011_111110 = .not 7 3 0x3E := by decide
theorem test_decode_ldi : decodeWord 0b1010_100_010000001 = .ldi 4 0x81 := by decide
theorem test_decode_sti : decodeWord 0b1011_100_000000001 = .sti 4 1 := by decide
theorem test_decode_jmp : decodeWord 0b1100_101_010_111110 = .jmp 5 2 0x3E := by decide
theorem test_decode_ret : decodeWord 0b1100_000_111_000000 = .ret 0 0 := by decide
theorem test_decode_res : decodeWord 0b1101_000000000010 = .res 2 := by decide
theorem test_decode_lea : decodeWord 0b1110_001_000000111 = .lea 1 7 := by decide
theorem test_decode_trap : decodeWord 0b1111_0001_00100110 = .trap 1 0x26 := by decide
theorem test_decode_getc : decodeWord 0b1111_0000_00100000 = .getc 0 := by decide
theorem test_decode_out : decodeWord 0b1111_0010_00100001 = .out 2 := by decide
theorem test_decode_puts : decodeWord 0b1111_0000_00100010 = .puts 0 := by decide
theorem test_decode_inp : decodeWord 0b1111_1000_00100011 = .inp 8 := by decide
theorem test_decode_putsp : decodeWord 0b1111_0000_00100100 = .putsp 0 := by decide
theorem test_decode_halt : decodeWord 0xF025 = .halt 0 ∧ decodeWord 0xF125 = .halt 1 ∧ decodeWord 0xFF25 = .halt 0xF := by decide
theorem test_decode_listed : decodeWord 0x0000 = .br 0 0 ∧ decodeWord 0x0E00 = .br 7 0 ∧ decodeWord 0x1020 = .addImm 0 0 0 ∧
    decodeWord 0x1000 = .addReg 0 0 0 0 ∧ decodeWord 0x4000 = .jsrr 0 0 0 ∧ decodeWord 0x4800 = .jsr 0 ∧
    decodeWord 0x9FFF = .not 7 7 0x3F ∧ decodeWord 0xC000 = .jmp 0 0 0 := by decide
theorem test_decode_no_word : decode [] = .error .noWord := rfl
theorem test_decode_keeps_the_rest : decode [0xC1C0, 0x1234] = .ok (.ret 0 0, [0x1234]) := rfl
theorem test_decodeTableWord : decodeTableWord 16 0x40C0 = some (.jsrr 0 3 0) ∧ decodeTableWord 16 0xF025 = some (.halt 0) := by decide

/-! ### Worked examples W1 to W4 -/

theorem test_sext_W1 : sext (0x1FE : BitVec 9) = 0xFFFE := by decide
theorem test_flags_W2 : flagOf 0x0000 = 2 ∧ flagOf 0x0001 = 1 ∧ flagOf 0x7FFF = 1 ∧ flagOf 0x8000 = 4 ∧ flagOf 0xFFFF = 4 := by decide
theorem test_no_wrap_aliasing_W4 : (Memory.write [] 0xFFFF 0xAAAA).read 0x0000 = 0 := by decide
theorem test_fetch_wraps_W4 : (start [] 2 0xFFFF []).fetch.pc = 0 := by decide

/-! ### Operate (95, section 2.1) -/

theorem test_add_reg_same_register : regView 1 (start [(1, 0x4000)] 2 0x3000 [(0x3000, 0x1241)]) = some (0x8000, 4, 0x3001) := by decide
theorem test_add_reg_wraps_to_zero : regView 0 (start [(1, 0xFFFF), (2, 1)] 1 0x3000 [(0x3000, 0x1042)]) = some (0, 2, 0x3001) := by decide
theorem test_add_imm_negative : regView 0 (start [] 2 0x3000 [(0x3000, 0x1030)]) = some (0xFFF0, 4, 0x3001) := by decide
theorem test_add_imm_copy : regView 0 (start [(1, 0x8000)] 2 0x3000 [(0x3000, 0x1060)]) = some (0x8000, 4, 0x3001) := by decide
theorem test_and_reg : regView 3 (start [(1, 0x00F0), (2, 0x0FF0)] 2 0x3000 [(0x3000, 0x5642)]) = some (0x00F0, 1, 0x3001) := by decide
theorem test_and_imm_sign_extended_mask : regView 0 (start [(0, 0x00FF)] 2 0x3000 [(0x3000, 0x5030)]) = some (0x00F0, 1, 0x3001) := by decide
theorem test_not : regView 0 (start [(0, 7)] 2 0x3000 [(0x3000, 0x903F)]) = some (0xFFF8, 4, 0x3001) := by decide
theorem test_not_ffff : regView 0 (start [(1, 0xFFFF)] 1 0x3000 [(0x3000, 0x9040)]) = some (0, 2, 0x3001) := by decide

/-! ### Loads and stores (95, section 2.2) -/

theorem test_ld_reads_own_word : regView 1 (start [] 2 0x3000 [(0x3000, 0x23FF)]) = some (0x23FF, 1, 0x3001) := by decide
theorem test_ld_at_the_top : regView 0 (start [] 2 0xFFFF [(0xFFFF, 0x21FF)]) = some (0x21FF, 1, 0) := by decide
theorem test_ldi : regView 0 (start [] 2 0x3000 [(0x3000, 0xA001), (0x3002, 0x4000), (0x4000, 0x1234)]) = some (0x1234, 1, 0x3001) := by decide
theorem test_ldi_pointer_to_itself : regView 0 (start [] 2 0x3000 [(0x3000, 0xA001), (0x3002, 0x3002)]) = some (0x3002, 1, 0x3001) := by decide
theorem test_ldr_wraps_up : regView 0 (start [(1, 0xFFFF)] 2 0x3000 [(0, 0xBEEF), (0x3000, 0x6041)]) = some (0xBEEF, 4, 0x3001) := by decide
theorem test_ldr_minus_32 : regView 0 (start [(1, 0x4000)] 2 0x3000 [(0x3000, 0x6060), (0x3FE0, 4)]) = some (4, 1, 0x3001) := by decide
theorem test_lea_negative : regView 0 (start [] 2 0x8000 [(0x8000, 0xE000)]) = some (0x8001, 4, 0x8001) := by decide
theorem test_lea_zero_at_the_top : regView 0 (start [] 1 0xFFFF [(0xFFFF, 0xE000)]) = some (0, 2, 0) := by decide
theorem test_st_wraps : cellView 0xFFFF (start [(0, 0xAAAA)] 1 0 [(0, 0x31FE)]) = some (0xAAAA, 1, 1) := by decide
theorem test_st_keeps_flags : cellView 0x3008 (start [(0, 0xC)] 4 0x3006 [(0x3006, 0x3001)]) = some (0xC, 4, 0x3007) := by decide
theorem test_sti : cellView 0x0100 (start [(4, 1)] 1 0x3004 [(0x3004, 0xB801), (0x3006, 0x0100)]) = some (1, 1, 0x3005) := by decide
theorem test_sti_pointer_to_itself : cellView 0x3002 (start [(4, 0x1111)] 1 0x3000 [(0x3000, 0xB801), (0x3002, 0x3002)]) = some (0x1111, 1, 0x3001) := by decide
theorem test_str : cellView 0x3009 (start [(0, 0xFFF9), (1, 0x3008)] 4 0x3000 [(0x3000, 0x7041)]) = some (0xFFF9, 4, 0x3001) := by decide
theorem test_str_same_register : cellView 0x3FFF (start [(1, 0x4000)] 2 0x3000 [(0x3000, 0x727F)]) = some (0x4000, 2, 0x3001) := by decide
theorem test_store_of_zero_unlists : (Memory.write [(0x3000, 5)] 0x3000 0) = [] := by decide

/-! ### Control transfer (95, section 2.3) -/

theorem test_brn_taken : regView 7 (start [] 4 0x3000 [(0x3000, 0x0805)]) = some (0, 4, 0x3006) := by decide
theorem test_brzp_not_taken : regView 7 (start [] 4 0x3000 [(0x3000, 0x0605)]) = some (0, 4, 0x3001) := by decide
theorem test_jmp_unused_bits : regView 7 (start [(2, 0x1234)] 2 0x3000 [(0x3000, 0xCEBF)]) = some (0, 2, 0x1234) := by decide
theorem test_ret : regView 7 (start [(7, 0x3003)] 2 0x3007 [(0x3007, 0xC1C0)]) = some (0x3003, 2, 0x3003) := by decide
theorem test_jsr_backwards : regView 7 (start [] 2 0x3000 [(0x3000, 0x4C00)]) = some (0x3001, 2, 0x2C01) := by decide
theorem test_jsr_loses_old_r7 : regView 7 (start [(7, 0x1111)] 2 0x3000 [(0x3000, 0x4800)]) = some (0x3001, 2, 0x3001) := by decide
theorem test_jsrr : regView 7 (start [(3, 0x4000)] 2 0x3000 [(0x3000, 0x40C0)]) = some (0x3001, 2, 0x4000) := by decide
theorem test_jsrr_r7_D6 : regView 7 (start [(7, 0x4000)] 2 0x3000 [(0x3000, 0x41C0)]) = some (0x3001, 2, 0x3001) := by decide

/-! ### TRAP and the services (95, section 2.4) -/

theorem test_getc : trapView (withInput [0x41] (start [] 4 0x3000 [(0x3000, 0xF020)])) = some (0x41, 0x3001, 4, 0x3001, .running) := by decide
theorem test_out_low_byte_D10 : outputView (start [(0, 0x1241)] 2 0x3000 [(0x3000, 0xF021)]) = some [0x41] ∧
    trapView (start [(0, 0x1241)] 2 0x3000 [(0x3000, 0xF021)]) = some (0x1241, 0x3001, 2, 0x3001, .running) := by decide
theorem test_puts : outputView (start [(0, 0x3003)] 2 0x3000 [(0x3000, 0xF022), (0x3003, 0x48), (0x3004, 0x49)]) = some [0x48, 0x49] := by
  decide +kernel
theorem test_puts_word_0100 : outputView (start [(0, 0x4000)] 2 0x3000 [(0x3000, 0xF022), (0x4000, 0x0100)]) = some [0] := by
  decide +kernel
theorem test_in_of_80_is_positive : trapView (withInput [0x80] (start [] 2 0x3000 [(0x3000, 0xF023)])) = some (0x80, 0x3001, 1, 0x3001, .running) ∧
    outputView (withInput [0x80] (start [] 2 0x3000 [(0x3000, 0xF023)])) = some Config.inPrompt := ⟨by decide, rfl⟩
theorem test_putsp : outputView (start [(0, 0x4000)] 2 0x3000 [(0x3000, 0xF024), (0x4000, 0x4948), (0x4001, 0x0021)]) = some [0x48, 0x49, 0x21] := by
  decide +kernel
theorem test_putsp_zero_low_byte_D13 : outputView (start [(0, 0x4000)] 2 0x3000 [(0x3000, 0xF024), (0x4000, 0x4100)]) = some [0, 0x41] := by
  decide +kernel
theorem test_halt : trapView (start [] 2 0x3001 [(0x3001, 0xFF25)]) = some (0, 0x3002, 2, 0x3002, .halted) ∧
    outputView (start [] 2 0x3001 [(0x3001, 0xFF25)]) = some Config.haltNotice := ⟨by decide, rfl⟩

/-! ### Fatal outcomes (95, section 2.5) -/

theorem test_rti : trapView (start [(7, 0x1234)] 1 0x3000 [(0x3000, 0x8000)]) =
    some (0, 0x1234, 1, 0x3000, .fatal ⟨.illegalOpcode, 0x8000, 0x3000⟩) := by decide
theorem test_res : trapView (start [] 2 0x4000 [(0x4000, 0xDFFF)]) = some (0, 0, 2, 0x4000, .fatal ⟨.illegalOpcode, 0xDFFF, 0x4000⟩) := by
  decide
theorem test_trap_26 : trapView (start [(7, 0x1234)] 2 0x3000 [(0x3000, 0xF026)]) =
    some (0, 0x1234, 2, 0x3000, .fatal ⟨.unknownTrapVector, 0xF026, 0x3000⟩) := by decide
theorem test_trap_1F : trapView (start [] 2 0x3000 [(0x3000, 0xF01F)]) = some (0, 0, 2, 0x3000, .fatal ⟨.unknownTrapVector, 0xF01F, 0x3000⟩) := by
  decide
theorem test_getc_at_end_of_stream : trapView (endInput (start [(0, 5), (7, 0x1234)] 2 0x3000 [(0x3000, 0xF020)])) =
    some (5, 0x1234, 2, 0x3000, .fatal ⟨.ioFailure .inputEos, 0xF020, 0x3000⟩) := by decide
theorem test_in_at_end_of_stream : trapView (endInput (start [] 4 0x3000 [(0x3000, 0xF023)])) =
    some (0, 0, 4, 0x3000, .fatal ⟨.ioFailure .inputEos, 0xF023, 0x3000⟩) := by decide
theorem test_out_sink_fails : trapView (withRoom 0 (start [(0, 0x41)] 2 0x3000 [(0x3000, 0xF021)])) =
    some (0x41, 0, 2, 0x3000, .fatal ⟨.ioFailure .outputFail, 0xF021, 0x3000⟩) := by decide

/-! ### Placing an instruction -/

theorem test_withFetchWord_runs_after_reset : regView 0 (State.reset.withFetchWord 16 0x102F) = some (15, 1, 0x3001) := by decide

/-! ### Witnesses: states and operands that meet the hypotheses of the statements -/

/-- A word placed at 0x3000 in the state after reset. -/
def at3000 (w : Word) : State := start [] 2 0x3000 [(0x3000, w)]

/-- A state in the middle of a wait. -/
def inWait (s : State) : State := { s with waiting := true }

theorem witness_DecodeOfEncodeIsTheInstruction : (Instr.addReg 7 0 3 7).wellFormed = true ∧ (Instr.jmp 7 6 0x3F).wellFormed = true ∧
    (Instr.trap 0xF 0xFF).wellFormed = true ∧ (Instr.halt 0xF).wellFormed = true := by decide
theorem witness_EveryWordMatchesOneBaseRow : (0xC1C0#16, 0xF1C0#16) ∈ aliasRows ∧ (0xCFFF : Word) &&& 0xF1C0 = 0xC1C0 ∧
    (0xF025#16, 0xF0FF#16) ∈ aliasRows ∧ (0xFF25 : Word) &&& 0xF0FF = 0xF025 := by decide
theorem witness_UnusedBitsAreIgnored : (0xC080 : Word) ≠ 0xCEBF ∧
    0xC080 &&& (decodeWord 0xC080).row.used = 0xCEBF &&& (decodeWord 0xC080).row.used := by decide
theorem witness_StepRunsTheDecodedInstruction : State.reset.runState = .running := rfl
theorem witness_PlacedInstructionRunsNext : (Instr.trap 0xF 0x26).wellFormed = true := by decide
theorem witness_EndedRunStaysAsItIs : { State.reset with runState := .halted }.runState ≠ .running ∧
    { State.reset with runState := .fatal ⟨.illegalOpcode, 0x8000, 0x3000⟩ }.runState ≠ .running := by decide
theorem witness_ZeroWordChangesOnlyPc : State.reset.runState = .running ∧ State.reset.mem.read State.reset.pc = 0x0000#16 := by decide

/-- The invariant from its four parts. -/
theorem inv_of {s : State} (h : s.mem.wf ∧ CondLegal s.cond ∧ s.waiting = false ∧ s.runState = .running) : s.Inv := by
  obtain ⟨m, c, w, r⟩ := h
  exact ⟨m, c, fun x => by simp [w] at x, by unfold FatalLegal; rw [r]; trivial⟩

theorem witness_StepKeepsTheInvariant : (at3000 0x1025).Inv ∧ ∃ t, step (at3000 0x1025) = .next t :=
  ⟨inv_of (by decide), _, rfl⟩
theorem witness_ReachableStatesMeetTheInvariant : Reachable (construct [(0x3000, 0xF025)] Channels.reset) := .construct _ _ (by decide)
theorem witness_OnlyGetcAndInWait : (at3000 0xF020).Inv ∧ (at3000 0xF020).runState = .running ∧
    ∃ t, step (at3000 0xF020) = .next t ∧ t.waiting = true := ⟨inv_of (by decide), rfl, _, rfl, rfl⟩
theorem witness_HostLiftsTheWait_in : (at3000 0xF023).Inv ∧ (at3000 0xF023).runState = .running ∧
    ∃ t, step (at3000 0xF023) = .next t ∧ t.waiting = true := ⟨inv_of (by decide), rfl, _, rfl, rfl⟩
theorem witness_HaltedComesOnlyFromHalt : ∃ t, step (at3000 0xF025) = .next t ∧ t.runState = .halted := ⟨_, rfl, rfl⟩
theorem witness_FatalCausesAreExactlyThese :
    (∃ t, step (at3000 0xD000) = .next t ∧ ∃ r, t.runState = .fatal r ∧ r.cause = .illegalOpcode) ∧
    (∃ t, step (at3000 0xF0FF) = .next t ∧ ∃ r, t.runState = .fatal r ∧ r.cause = .unknownTrapVector) ∧
    (∃ t, step (endInput (at3000 0xF020)) = .next t ∧ ∃ r, t.runState = .fatal r ∧ r.cause = .ioFailure .inputEos) ∧
    (∃ t, step (withRoom 0 (at3000 0xF021)) = .next t ∧ ∃ r, t.runState = .fatal r ∧ r.cause = .ioFailure .outputFail) :=
  ⟨⟨_, rfl, _, rfl, rfl⟩, ⟨_, rfl, _, rfl, rfl⟩, ⟨_, rfl, _, rfl, rfl⟩, _, rfl, _, rfl, rfl⟩
theorem witness_FatalLeavesTheStateBeforeTheFetch : ∃ t r, step (at3000 0x8FFF) = .next t ∧ t.runState = .fatal r := ⟨_, _, rfl, rfl⟩
theorem witness_MemoryChangesOnlyByStores :
    (∃ t, step (start [(0, 5)] 2 0x3000 [(0x3000, 0x31FE)]) = .next t ∧ t.mem.read 0x2FFF ≠ (start [(0, 5)] 2 0x3000 [(0x3000, 0x31FE)]).mem.read 0x2FFF) ∧
    (∃ t, step (start [(4, 1)] 2 0x3000 [(0x3000, 0xB9FF)]) = .next t ∧ t.mem.read 0xB9FF ≠ (start [(4, 1)] 2 0x3000 [(0x3000, 0xB9FF)]).mem.read 0xB9FF) ∧
    (∃ t, step (start [(0, 5)] 2 0x3000 [(0x3000, 0x707F)]) = .next t ∧ t.mem.read 0xFFFF ≠ (start [(0, 5)] 2 0x3000 [(0x3000, 0x707F)]).mem.read 0xFFFF) :=
  ⟨⟨_, rfl, by decide⟩, ⟨_, rfl, by decide⟩, ⟨_, rfl, by decide⟩⟩
theorem witness_RegistersChangeOnlyAsTheRulesSay :
    (∃ t, step (at3000 0x1025) = .next t ∧ t.reg 0 ≠ (at3000 0x1025).reg 0) ∧
    (∃ t, step (at3000 0x4FFF) = .next t ∧ t.reg 7 ≠ (at3000 0x4FFF).reg 7) ∧
    (∃ t, step (withInput [0x41] (at3000 0xF020)) = .next t ∧ t.reg 0 ≠ (withInput [0x41] (at3000 0xF020)).reg 0) :=
  ⟨⟨_, rfl, by decide⟩, ⟨_, rfl, by decide⟩, ⟨_, rfl, by decide⟩⟩
theorem witness_CondIsWrittenByExactlyTheseInstructions :
    (∃ t, step (at3000 0x1025) = .next t ∧ defined (decodeWord ((at3000 0x1025).mem.read 0x3000)) = some 0) ∧
    (∃ t, step (at3000 0xF023) = .next t ∧ decodeWord ((at3000 0xF023).mem.read 0x3000) = .inp 0) ∧
    (∃ t, step (at3000 0x3000) = .next t ∧ decodeWord ((at3000 0x3000).mem.read 0x3000) = .st 0 0) :=
  ⟨⟨_, rfl, rfl⟩, ⟨_, rfl, rfl⟩, ⟨_, rfl, rfl⟩⟩
theorem witness_PcIsWrittenOnlyByControlTransfer : ∃ t, step (at3000 0x8000) = .next t ∧
    transfersControl (decodeWord ((at3000 0x8000).mem.read 0x3000)) = false := ⟨_, rfl, rfl⟩
theorem witness_ChannelsOnlyMoveForward : ∃ t, step (withInput [1, 2] (at3000 0xF020)) = .next t ∧ t.io.input = [2] := ⟨_, rfl, rfl⟩
theorem witness_WriteChangesExactlyOneCell : (0x0000 : Word) ≠ 0xFFFF := by decide
theorem witness_CanonicalMemoriesThatReadAlikeAreEqual : Memory.wf [(0, 1), (0xFFFF, 2)] ∧
    ∀ a, Memory.read [(0, 1), (0xFFFF, 2)] a = Memory.read (Memory.write [(0xFFFF, 2)] 0 1) a := ⟨by decide, fun _ => rfl⟩
theorem witness_LoadBlockWritesTheImage :
    (0xFFFF : Word).toNat + [(0x1234 : Word)].length ≤ 65536 ∧ 65536 < (0xFFFF : Word).toNat + [(0x1234 : Word), 1].length ∧
    (0x0000 : Word).toNat + (List.replicate 65536 (1 : Word)).length ≤ 65536 ∧
    65536 < (0x0001 : Word).toNat + (List.replicate 65536 (1 : Word)).length ∧ (0xFFFE : Word).toNat < (0xFFFF : Word).toNat ∧
    (0x3000 : Word).toNat + [(1 : Word), 2].length ≤ (0x3002 : Word).toNat := by
  rw [List.length_replicate]; decide
theorem witness_StoredWordIsFetchedNext :
    (decodeWord ((at3000 0x3600).mem.read 0x3000) = .st 3 0 ∧ (0x3000 : Word) + 1 + (0 : BitVec 9).signExtend 16 = 0x3000 + 1) ∧
    (decodeWord ((start [] 2 0x3000 [(0x3000, 0xB601), (0x3002, 0x3001)]).mem.read 0x3000) = .sti 3 1 ∧
      (start [] 2 0x3000 [(0x3000, 0xB601), (0x3002, 0x3001)]).mem.read (0x3000 + 1 + (1 : BitVec 9).signExtend 16) = 0x3000 + 1) ∧
    (decodeWord ((start [(1, 0x3002)] 2 0x3000 [(0x3000, 0x767F)]).mem.read 0x3000) = .str 3 1 0x3F ∧
      (start [(1, 0x3002)] 2 0x3000 [(0x3000, 0x767F)]).reg 1 + (0x3F : BitVec 6).signExtend 16 = 0x3000 + 1) := by decide
theorem witness_SignExtensionReplicatesTheTopBit : sext (1 : BitVec 1) = 0xFFFF ∧ sext (0x8000 : BitVec 16) = 0x8000 ∧
    sext (0x3FF : BitVec 11) = 0x03FF ∧ zextByte 0x80 = 0x0080 := by decide
theorem witness_FlagIsTheSignOfTheValue : (0x0000 : Word).toInt = 0 ∧ (0xFFFF : Word).toInt < 0 ∧ (0x8000 : Word).toInt < 0 ∧
    0 < (0x0001 : Word).toInt ∧ 0 < (0x7FFF : Word).toInt := by decide

/-! Encodings: the lowest and the highest word of each format. -/

theorem witness_AddRegister : (field 0x1000 12 4 = 0b0001 ∧ field 0x1000 5 1 = 0) ∧ field 0x1FDF 12 4 = 0b0001 ∧ field 0x1FDF 5 1 = 0 := by decide
theorem witness_AddImmediate : (field 0x1020 12 4 = 0b0001 ∧ field 0x1020 5 1 = 1) ∧ field 0x1FFF 12 4 = 0b0001 ∧ field 0x1FFF 5 1 = 1 := by decide
theorem witness_AndRegister : (field 0x5000 12 4 = 0b0101 ∧ field 0x5000 5 1 = 0) ∧ field 0x5FDF 12 4 = 0b0101 ∧ field 0x5FDF 5 1 = 0 := by decide
theorem witness_AndImmediate : (field 0x5020 12 4 = 0b0101 ∧ field 0x5020 5 1 = 1) ∧ field 0x5FFF 12 4 = 0b0101 ∧ field 0x5FFF 5 1 = 1 := by decide
theorem witness_NotComplements : field 0x9000 12 4 = 0b1001 ∧ field 0x9FFF 12 4 = 0b1001 := by decide
theorem witness_LoadPcRelative : field 0x2000 12 4 = 0b0010 ∧ field 0x2FFF 12 4 = 0b0010 := by decide
theorem witness_LoadIndirect : field 0xA000 12 4 = 0b1010 ∧ field 0xAFFF 12 4 = 0b1010 := by decide
theorem witness_LoadBaseOffset : field 0x6000 12 4 = 0b0110 ∧ field 0x6FFF 12 4 = 0b0110 := by decide
theorem witness_LoadEffectiveAddress : field 0xE000 12 4 = 0b1110 ∧ field 0xEFFF 12 4 = 0b1110 := by decide
theorem witness_StorePcRelative : field 0x3000 12 4 = 0b0011 ∧ field 0x3FFF 12 4 = 0b0011 := by decide
theorem witness_StoreIndirect : field 0xB000 12 4 = 0b1011 ∧ field 0xBFFF 12 4 = 0b1011 := by decide
theorem witness_StoreBaseOffset : field 0x7000 12 4 = 0b0111 ∧ field 0x7FFF 12 4 = 0b0111 := by decide
theorem witness_BranchTestsTheFlags : (field 0x0000 12 4 = 0 ∧ field 0x0FFF 12 4 = 0) ∧ CondLegal State.reset.cond ∧ CondLegal 4 ∧ CondLegal 1 := by
  decide
theorem witness_JumpThroughARegister : field 0xC000 12 4 = 0b1100 ∧ field 0xC1C0 12 4 = 0b1100 ∧ field 0xCFFF 12 4 = 0b1100 := by decide
theorem witness_SubroutineCallPcRelative : (field 0x4800 12 4 = 0b0100 ∧ field 0x4800 11 1 = 1) ∧ field 0x4FFF 12 4 = 0b0100 ∧ field 0x4FFF 11 1 = 1 := by
  decide
theorem witness_SubroutineCallThroughARegister : (field 0x4000 12 4 = 0b0100 ∧ field 0x4000 11 1 = 0) ∧
    field 0x47FF 12 4 = 0b0100 ∧ field 0x47FF 11 1 = 0 := by decide
theorem witness_RtiAndResAreFatal : (field 0x8000 12 4 = 0b1000 ∧ field 0x8FFF 12 4 = 0b1000) ∧ field 0xD000 12 4 = 0b1101 ∧ field 0xDFFF 12 4 = 0b1101 := by
  decide

/-! TRAP and the services. -/

theorem witness_UnknownTrapVectorIsFatal : (∀ v ∈ [(0x00 : BitVec 8), 0x1F], v.toNat < 0x20) ∧ ∀ v ∈ [(0x26 : BitVec 8), 0xFF], 0x25 < v.toNat := by
  decide

/-- Memory is empty at 0x4000, so the empty string stands there. -/
theorem string_empty : StringAt (at3000 0xF022).mem 0x4000 0 := ⟨by decide, by simp, by decide⟩

/-- The two words of "HI" at 0x3003. -/
def hi : Memory := [(0x3000, 0xF022), (0x3003, 0x48), (0x3004, 0x49)]

theorem string_hi : StringAt hi 0x3003 2 := ⟨by decide, by decide, by decide⟩

theorem witness_TrapLinksAndRunsItsService_service : (serviceOf 0x25).isSome = true := rfl
theorem witness_TrapLinksAndRunsItsService_input : ServiceWrites 0x20 (withInput [0] State.reset) [] ∧
    ServiceWrites 0x23 (withInput [0] State.reset) Config.inPrompt ∧ ServiceWrites 0x23 (inWait (withInput [0] State.reset)) [] ∧
    SinkAccepts (withInput [0] State.reset).io Config.inPrompt.length ∧ (withInput [0] State.reset).io.input ≠ [] :=
  ⟨.inl ⟨rfl, rfl⟩, .inr (.inr (.inr (.inl ⟨rfl, rfl⟩))), .inr (.inr (.inr (.inl ⟨rfl, rfl⟩))), nofun, by decide⟩
theorem witness_TrapLinksAndRunsItsService_output : ServiceWrites 0x21 (withRoom 1 State.reset) [0x00] ∧
    SinkAccepts (withRoom 1 State.reset).io 1 ∧ ServiceWrites 0x25 (withRoom Config.haltNotice.length State.reset) Config.haltNotice ∧
    SinkAccepts (withRoom Config.haltNotice.length State.reset).io Config.haltNotice.length :=
  ⟨.inr (.inl ⟨rfl, by decide⟩), fun _ h => by cases h; decide, .inr (.inr (.inr (.inr (.inr ⟨rfl, rfl⟩)))),
    fun _ h => by cases h; exact le_refl _⟩
theorem witness_TrapLinksAndRunsItsService_string :
    ServiceWrites 0x22 (start [(0, 0x3003)] 2 0x3000 hi) [0x48, 0x49] ∧ ServiceWrites 0x24 (start [(0, 0x3003)] 2 0x3000 hi) [0x48, 0x49] ∧
    SinkAccepts (start [(0, 0x3003)] 2 0x3000 hi).io 2 :=
  ⟨.inr (.inr (.inl ⟨rfl, 2, string_hi, by decide⟩)), .inr (.inr (.inr (.inr (.inl ⟨rfl, 2, string_hi, by decide⟩)))), nofun⟩
theorem witness_GetcReadsOneByte : (withInput [0xFF] State.reset).io.input = 0xFF :: [] := rfl
theorem witness_OutWritesTheLowByte : SinkAccepts State.reset.io 1 ∧ SinkAccepts (withRoom 1 State.reset).io 1 :=
  ⟨nofun, fun _ h => by cases h; decide⟩
theorem witness_PutsWritesTheString : StringAt hi ((start [(0, 0x3003)] 2 0x3000 hi).reg 0) 2 ∧
    SinkAccepts (withRoom 2 (start [(0, 0x3003)] 2 0x3000 hi)).io 2 ∧ SinkAccepts (at3000 0xF022).io 0 :=
  ⟨string_hi, fun _ h => by cases h; decide, nofun⟩
theorem witness_PutspWritesThePackedString : StringAt hi ((start [(0, 0x3003)] 2 0x3000 hi).reg 0) 2 ∧
    SinkAccepts (withRoom 2 (start [(0, 0x3003)] 2 0x3000 hi)).io (packedBytes hi 0x3003 2).length :=
  ⟨string_hi, fun _ h => by cases h; decide⟩
theorem witness_InPromptsAndReadsOneByte : (withInput [0x80] State.reset).io.input = 0x80 :: [] ∧
    (withInput [0x80] State.reset).waiting = false ∧ (inWait (withInput [0x80] State.reset)).waiting = true ∧
    SinkAccepts (withInput [0x80] State.reset).io Config.inPrompt.length := ⟨rfl, rfl, rfl, nofun⟩
theorem witness_HaltWritesTheNoticeAndEndsTheRun : SinkAccepts State.reset.io Config.haltNotice.length ∧
    SinkAccepts (withRoom Config.haltNotice.length State.reset).io Config.haltNotice.length :=
  ⟨nofun, fun _ h => by cases h; exact le_refl _⟩
theorem witness_IoFailureIsFatal_input : (endInput State.reset).io.input = [] ∧ (endInput State.reset).io.inputEnded = true ∧
    (endInput State.reset).waiting = false ∧ (inWait (endInput State.reset)).waiting = true ∧
    SinkAccepts (withRoom Config.inPrompt.length (endInput State.reset)).io Config.inPrompt.length :=
  ⟨rfl, rfl, rfl, rfl, fun _ h => by cases h; exact le_refl _⟩
theorem witness_IoFailureIsFatal_output : (withRoom 0 State.reset).io.sinkRoom = some 0 ∧ (withRoom 0 State.reset).waiting = false ∧
    (withRoom 1 (start [(0, 0x3003)] 2 0x3000 hi)).io.sinkRoom = some 1 ∧ StringAt hi 0x3003 2 ∧ 1 < 2 ∧
    1 < (packedBytes hi 0x3003 2).length := ⟨rfl, rfl, rfl, string_hi, by decide, by decide⟩
theorem witness_GetcAndInWaitForInput : State.reset.io.input = [] ∧ State.reset.io.inputEnded = false ∧ State.reset.waiting = false ∧
    (inWait State.reset).waiting = true ∧ SinkAccepts State.reset.io Config.inPrompt.length := ⟨rfl, rfl, rfl, rfl, nofun⟩

/-- A memory with the word 0xF022 (PUTS) in every cell. -/
def full : Memory := (List.range' 0 65536).map (fun k => (k, (0xF022 : Word)))

theorem length_packedBytes (m : Memory) (a : Word) (k : Nat) : k ≤ (packedBytes m a k).length := by
  unfold packedBytes
  induction k with
  | zero => simp
  | succ k ih => rw [List.range_succ, List.flatMap_append]; simp at ih ⊢; omega

/-- The same with PUTSP in every cell. -/
def fullPacked : Memory := (List.range' 0 65536).map (fun k => (k, (0xF024 : Word)))

theorem cell_map (v : Word) (n : Nat) : ∀ b a, b ≤ a → a < b + n → Memory.cell ((List.range' b n).map (fun k => (k, v))) a = v := by
  induction n with
  | zero => intro b a h h'; omega
  | succ n ih =>
    intro b a h h'
    rw [List.range'_succ, List.map_cons, Memory.cell]
    split
    · rfl
    · exact ih (b + 1) a (by omega) (by omega)

theorem read_full (a : Word) : Memory.read full a = 0xF022 := cell_map _ 65536 0 a.toNat (by omega) (by have := a.isLt; omega)

theorem read_fullPacked (a : Word) : Memory.read fullPacked a = 0xF024 := cell_map _ 65536 0 a.toNat (by omega) (by have := a.isLt; omega)

theorem witness_IoFailureIsFatal_endless : (∀ a, (withRoom 0 (construct full Channels.reset)).mem.read a ≠ 0x0000#16) ∧
    65535 < (lowBytes full 0 Config.memWords).length ∧ 65535 < (packedBytes full 0 Config.memWords).length :=
  ⟨fun a => by rw [show (withRoom 0 (construct full Channels.reset)).mem = full from rfl, read_full]; decide,
    by simp [lowBytes, Config.memWords], lt_of_lt_of_le (by decide : 65535 < Config.memWords) (length_packedBytes full 0 Config.memWords)⟩

theorem witness_StringWithNoZeroWordNeverEnds_puts : (construct full Channels.reset).runState = .running ∧
    decodeWord ((construct full Channels.reset).mem.read 0x3000) = .puts 0 ∧
    (∀ a, (construct full Channels.reset).mem.read a ≠ 0x0000#16) ∧ SinkAccepts (construct full Channels.reset).io 65536 := by
  refine ⟨rfl, ?_, fun a => ?_, nofun⟩
  · rw [show (construct full Channels.reset).mem = full from rfl, read_full]; decide
  · rw [show (construct full Channels.reset).mem = full from rfl, read_full]; decide

/-- PUTSP in every cell, and a sink that takes exactly one lap. -/
def packedLap : State :=
  construct fullPacked { Channels.reset with sinkRoom := some (packedBytes fullPacked 0 Config.memWords).length }

theorem witness_StringWithNoZeroWordNeverEnds_putsp : packedLap.runState = .running ∧ decodeWord (packedLap.mem.read 0x3000) = .putsp 0 ∧
    (∀ a, packedLap.mem.read a ≠ 0x0000#16) ∧ SinkAccepts packedLap.io (packedBytes fullPacked 0 Config.memWords).length := by
  refine ⟨rfl, ?_, fun a => ?_, fun _ h => ?_⟩
  · rw [show packedLap.mem = fullPacked from rfl, read_fullPacked]; decide
  · rw [show packedLap.mem = fullPacked from rfl, read_fullPacked]; decide
  · exact le_of_eq (Option.some.inj h)

end Sys2Proof.Tests
end

section
/-! SUPPORT. Claims of 00_scope.md: the byte channels (R13) and the two extensions (R9). -/

namespace Sys2Proof.Machine

/-! ### The byte channels -/

/-- From `s` to `t` the instruction `i` took the first byte of INPUT and left it zero-extended in R0, as only GETC and IN
can (R171, R174, D11). -/
def TakesByteIntoR0 (s : State) (i : Instr) (t : State) : Prop :=
  waits i = true ∧ ∃ b, s.io.input = b :: t.io.input ∧ t.reg 0 = b.setWidth 16

/-- Whatever shape an instruction leaves, the channels moved forward, and INPUT lost nothing or one byte to R0. -/
theorem shape_channels {s t : State} {i : Instr} (h : Shape s i t) :
    Forward s.io t.io ∧ (t.io.input = s.io.input ∨ TakesByteIntoR0 s i t) := by
  cases h with
  | define | store | jump | call => exact ⟨forward_refl s.io, .inl rfl⟩
  | fatal _ _ _ f k | wait _ _ f k | again _ _ f k | wrote _ _ _ _ f k | halted _ _ _ f k => exact ⟨f, .inl k⟩
  | got b io u isGetc f k => exact ⟨f, .inr ⟨by rw [isGetc]; rfl, b, k, reg_setReg_self _ 0 _⟩⟩
  | read b io u isIn f k => exact ⟨f, .inr ⟨by rw [isIn]; rfl, b, k, reg_setReg_self _ 0 _⟩⟩

/-- Settles O25: a running step has one of the shapes of `Shape`, each of which moves the channels forward; the step of an
ended run leaves them as they are. -/
theorem channelsOnlyMoveForward : Obligations.ChannelsOnlyMoveForward := by
  intro s t stepped
  rcases step_cases s with ⟨running, -⟩ | ⟨-, stays⟩
  · obtain ⟨⟨grows, sameEnd⟩, taken⟩ := shape_channels (step_shape running stepped)
    exact ⟨grows, sameEnd, taken⟩
  · obtain rfl : s = t := by simpa [stays] using stepped
    exact ⟨List.prefix_rfl, rfl, .inl rfl⟩

/-! ### The two extensions -/

/-- `sext` copies the field's bits and puts its top bit in every bit above. -/
theorem getLsbD_sext {n : Nat} (f : BitVec n) (i : Nat) (h : i < 16) :
    (sext f).getLsbD i = if i < n then f.getLsbD i else f.getLsbD (n - 1) := by
  rw [sext, BitVec.getLsbD_signExtend, BitVec.msb_eq_getLsbD_last]
  simp only [h, decide_true, Bool.true_and]

/-- `sext` of a field that fits a word keeps its two's-complement value. -/
theorem toInt_sext {n : Nat} (f : BitVec n) (fits : n ≤ 16) : (sext f).toInt = f.toInt :=
  BitVec.toInt_signExtend_of_le fits

/-- `zextByte` copies the byte's bits and puts zeros above. -/
theorem getLsbD_zextByte (b : Byte) (i : Nat) : (zextByte b).getLsbD i = (decide (i < 8) && b.getLsbD i) := by
  rw [zextByte, BitVec.getLsbD_setWidth]
  by_cases low : i < 8
  · have : i < 16 := by omega
    simp only [low, this]
  · simp only [low, decide_false, BitVec.getLsbD_of_ge b i (by omega), Bool.and_false]

/-- Settles O30: the bits and the value of `sext`, and the bits of `zextByte`. -/
theorem signExtensionReplicatesTheTopBit : Obligations.SignExtensionReplicatesTheTopBit :=
  ⟨fun _ f _ fits => ⟨getLsbD_sext f, toInt_sext f fits⟩, fun b i _ => getLsbD_zextByte b i⟩

end Sys2Proof.Machine
end

section
/-! SUPPORT. Claims of 10_state.md: the reset values (R34), the invariant of COND, memory, the wait and the report (R29, R178,
R202), and who writes `run_state` (R32), the general registers (R22) and PC (R27). -/

namespace Sys2Proof.Machine

/-! ### Reset -/

/-- Construction sets every general register to 0 (R34, D4). -/
@[simp] theorem reg_construct (m : Memory) (io : Channels) (r : Reg) : (construct m io).reg r = 0x0000#16 := by
  rw [State.reg, construct_gpr]
  exact Vector.getElem_replicate r.isLt

/-- Reset is construction over the empty list of cells. -/
theorem reset_eq_construct : State.reset = construct State.reset.mem State.reset.io := rfl

/-- Settles O12, by the fields of `construct`. -/
theorem constructionSetsTheResetValues : Obligations.ConstructionSetsTheResetValues :=
  ⟨fun m io => ⟨reg_construct m io, rfl, rfl, rfl, rfl, rfl⟩, reset_eq_construct, fun _ => rfl⟩

/-! ### The parts of the invariant, from the shape of the next state -/

/-- The flag of a value is one of the three (R29, R100). -/
theorem flagOf_legal (v : Word) : CondLegal (flagOf v) := by
  unfold flagOf
  split
  · exact .inr (.inl rfl)
  · split
    · exact .inl rfl
    · exact .inr (.inr rfl)

/-- `FatalLegal`, as what it asks of each report. -/
theorem fatalLegal_iff (s : State) : FatalLegal s ↔
    ∀ report, s.runState = .fatal report → report.address = s.pc ∧ report.word = s.mem.read s.pc := by
  unfold FatalLegal
  cases s.runState <;> simp

/-- Memory after an instruction is memory before it, or that with one cell written. -/
theorem shape_mem {s t : State} {i : Instr} (h : Shape s i t) : t.mem = s.mem ∨ ∃ a v, t.mem = s.mem.write a v := by
  cases h with
  | store a v => exact .inr ⟨a, v, rfl⟩
  | define | jump | call | fatal | wait | again | wrote | halted | got | read => exact .inl rfl

/-- COND after an instruction is COND before it, or the flag of a value (R101). -/
theorem shape_cond {s t : State} {i : Instr} (h : Shape s i t) : t.cond = s.cond ∨ ∃ v, t.cond = flagOf v := by
  cases h with
  | define dr v => exact .inr ⟨v, rfl⟩
  | read b => exact .inr ⟨zextByte b, rfl⟩
  | store | jump | call | fatal | wait | again | wrote | halted | got => exact .inl rfl

/-- An instruction leaves a wait only as a GETC or an IN that is back where it began: one that resumes a wait is a GETC or an
IN, and no other can have been waiting (R178). -/
theorem shape_waiting {s t : State} {i : Instr} (h : Shape s i t) (resumes : s.waiting = true → waits i = true)
    (w : t.waiting = true) : waits i = true ∧ t = midway s t.io true := by
  cases h with
  | wait io _ _ _ canWait => exact ⟨canWait, rfl⟩
  | define _ _ d => exact absurd (resumes w) (by simp [(defined_kind d).1])
  | store _ _ k => exact absurd (resumes w) (by simp [(storesAt_kind k).2.1])
  | jump _ c | call _ c => exact absurd (resumes w) (by simp [transfers_kind c])
  | fatal | again | wrote | halted | got | read => cases w

/-- An instruction ends in FATAL only as a fatal error raised on the state fetch left (R202, R203). -/
theorem shape_fatal {s t : State} {i : Instr} {report : FatalReport} (h : Shape s i t) (running : s.runState = .running)
    (f : t.runState = .fatal report) : ∃ why, t = raiseFatal why s t.io := by
  cases h with
  | fatal why io => exact ⟨why, rfl⟩
  | halted => cases f
  | define | store | jump | call | wait | again | wrote | got | read => exact absurd (running.symm.trans f) nofun

/-- An instruction ends in HALTED only as HALT (R32, R176). -/
theorem shape_halted {s t : State} {i : Instr} (h : Shape s i t) (running : s.runState = .running)
    (f : t.runState = .halted) : ∃ u, i = .halt u := by
  cases h with
  | halted _ u isHalt => exact ⟨u, isHalt⟩
  | fatal => cases f
  | define | store | jump | call | wait | again | wrote | got | read => exact absurd (running.symm.trans f) nofun

/-! ### The invariant -/

/-- An instruction keeps memory canonical. -/
theorem shape_mem_wf {s t : State} {i : Instr} (h : Shape s i t) (canonical : s.mem.wf) : t.mem.wf := by
  rcases shape_mem h with e | ⟨a, v, e⟩ <;> rw [e]
  · exact canonical
  · exact write_wf s.mem a v canonical

/-- An instruction keeps COND at one of the three flag values. -/
theorem shape_condLegal {s t : State} {i : Instr} (h : Shape s i t) (legal : CondLegal s.cond) : CondLegal t.cond := by
  rcases shape_cond h with e | ⟨v, e⟩ <;> rw [e]
  · exact legal
  · exact flagOf_legal v

/-- A running step leaves a wait only at a GETC or an IN. -/
theorem shape_waitLegal {s t : State} (h : Shape s.fetch (decodeWord (s.mem.read s.pc)) t) (running : s.runState = .running)
    (legal : WaitLegal s) : WaitLegal t := by
  intro w
  obtain ⟨canWait, e⟩ := shape_waiting h (fun w' => (legal w').2) w
  rw [e]
  exact ⟨running, canWait⟩

/-- A running step leaves a report only of the instruction at PC. -/
theorem shape_fatalLegal {s t : State} {i : Instr} (h : Shape s.fetch i t) (running : s.runState = .running) :
    FatalLegal t := by
  rw [fatalLegal_iff]
  intro report f
  obtain ⟨why, e⟩ := shape_fatal h running f
  rw [e] at f ⊢
  cases f
  exact ⟨rfl, rfl⟩

/-- Settles O14: a running step has one of the shapes of `Shape`, each of which keeps the four parts of the invariant; the
step of an ended run changes nothing. -/
theorem stepKeepsTheInvariant : Obligations.StepKeepsTheInvariant := by
  intro s t inv stepped
  rcases step_cases s with ⟨running, -⟩ | ⟨-, stays⟩
  · obtain ⟨canonical, condLegal, waitLegal, -⟩ := inv
    have shape := step_shape running stepped
    exact ⟨shape_mem_wf shape canonical, shape_condLegal shape condLegal, shape_waitLegal shape running waitLegal,
      shape_fatalLegal shape running⟩
  · obtain rfl : s = t := by simpa [stays] using stepped
    exact inv

/-- Construction over a canonical memory meets the invariant. -/
theorem construct_inv (m : Memory) (io : Channels) (canonical : m.wf) : (construct m io).Inv :=
  ⟨canonical, .inr (.inl rfl), nofun, trivial⟩

/-- The invariant does not speak of the channels. -/
theorem inv_withChannels {s : State} (inv : s.Inv) (io : Channels) : { s with io := io }.Inv := inv

/-- Supplying a byte changes nothing but the channels. -/
theorem supplyByte_eq (b : Byte) (s : State) : supplyByte b s = { s with io := (supplyByte b s).io } := by
  unfold supplyByte
  split <;> rfl

/-- Settles O13: reset is construction over the empty list of cells. -/
theorem resetMeetsTheInvariant : Obligations.ResetMeetsTheInvariant :=
  construct_inv State.reset.mem State.reset.io reset_mem_wf

/-- Settles O15, by induction on how the state was reached. -/
theorem reachableStatesMeetTheInvariant : Obligations.ReachableStatesMeetTheInvariant := by
  intro s reachable
  induction reachable with
  | construct m io canonical => exact construct_inv m io canonical
  | step s t _ stepped ih => exact stepKeepsTheInvariant s t ih stepped
  | supply b s _ ih => rw [supplyByte_eq]; exact inv_withChannels ih _
  | endInput s _ ih => exact inv_withChannels ih _

/-! ### Who writes `run_state`, the general registers and PC -/

/-- Settles O18: of the shapes a running step can have, only HALT's leaves HALTED. -/
theorem haltedComesOnlyFromHalt : Obligations.HaltedComesOnlyFromHalt :=
  fun _ _ running stepped halted => shape_halted (step_shape running stepped) running halted

/-- After TRAP entry only R7 differs, and it holds the return address (R160). -/
theorem reg_trapEntry_changed {s : State} {r : Reg} (changed : (trapEntry s).reg r ≠ s.reg r) :
    r = 7 ∧ (trapEntry s).reg r = s.pc := by
  rw [reg_trapEntry] at changed ⊢
  split at changed
  · exact ⟨‹r = 7›, if_pos ‹r = 7›⟩
  · exact absurd rfl changed

/-- After TRAP entry and a write of R0 only R0 and R7 differ, and R7 holds the return address. -/
theorem reg_setReg_trapEntry_changed {s : State} {r : Reg} {v : Word}
    (changed : ((trapEntry s).setReg 0 v).reg r ≠ s.reg r) :
    (r = 7 ∧ ((trapEntry s).setReg 0 v).reg r = s.pc) ∨ r = 0 := by
  by_cases isR0 : r = 0
  · exact .inr isR0
  · rw [reg_setReg_of_ne _ _ _ _ isR0] at changed ⊢
    exact .inl (reg_trapEntry_changed changed)

/-- A register an instruction changes is its DR, R7 with the return address by a link, or R0 by GETC or IN (R22). -/
theorem shape_reg {s t : State} {i : Instr} {r : Reg} (h : Shape s i t) (changed : t.reg r ≠ s.reg r) :
    defined i = some r ∨ (r = 7 ∧ links i = true ∧ t.reg r = s.pc) ∨ (r = 0 ∧ waits i = true) := by
  cases h with
  | define dr v d =>
    by_cases isDr : r = dr
    · exact .inl (isDr ▸ d)
    · exact absurd (reg_setReg_of_ne s dr r v isDr) changed
  | store | jump | fatal | wait | again => exact absurd rfl changed
  | call _ _ l | wrote _ _ l =>
    obtain ⟨isR7, linked⟩ := reg_trapEntry_changed changed
    exact .inr (.inl ⟨isR7, l, linked⟩)
  | halted _ _ isHalt =>
    obtain ⟨isR7, linked⟩ := reg_trapEntry_changed changed
    exact .inr (.inl ⟨isR7, by rw [isHalt]; rfl, linked⟩)
  | got _ _ _ isService | read _ _ _ isService =>
    rcases reg_setReg_trapEntry_changed changed with ⟨isR7, linked⟩ | isR0
    · exact .inr (.inl ⟨isR7, by rw [isService]; rfl, linked⟩)
    · exact .inr (.inr ⟨isR0, by rw [isService]; rfl⟩)

/-- Settles O22, by the shapes a running step can have. -/
theorem registersChangeOnlyAsTheRulesSay : Obligations.RegistersChangeOnlyAsTheRulesSay :=
  fun _ _ _ running stepped changed => shape_reg (step_shape running stepped) changed

/-- An instruction that transfers no control leaves PC as fetch left it, or is back at its own address in FATAL, in a wait or
within a string (R27, D8). -/
theorem shape_pc {s t : State} {i : Instr} (h : Shape s i t) (straight : transfersControl i = false) :
    t.pc = s.pc ∨ (t.pc = s.fetchPc ∧ ((∃ r, t.runState = .fatal r) ∨ t.waiting = true ∨ writesString i = true)) := by
  cases h with
  | jump _ c | call _ c => exact absurd (c.symm.trans straight) nofun
  | fatal why => exact .inr ⟨rfl, .inl ⟨_, rfl⟩⟩
  | wait => exact .inr ⟨rfl, .inr (.inl rfl)⟩
  | again _ _ _ _ string => exact .inr ⟨rfl, .inr (.inr string)⟩
  | define | store | wrote | halted | got | read => exact .inl rfl

/-- Settles O24, by the shapes a running step can have. -/
theorem pcIsWrittenOnlyByControlTransfer : Obligations.PcIsWrittenOnlyByControlTransfer :=
  fun _ _ running stepped straight => shape_pc (step_shape running stepped) straight

end Sys2Proof.Machine
end

section
/-! SUPPORT. Claims of 20_memory.md: one write (R42, R43), the canonical form (log entry 1), `load_block` (R57), which
instructions write memory (R48, R125 to R127), and the fetch of a word the host or a store put in the next cell (R55, R61). -/

namespace Sys2Proof

/-! ### The decoder reads back what the encoder placed -/

/-- A field of a bitwise or is the or of the two fields. -/
@[simp] theorem field_or (v w : Word) (lo len : Nat) : field (v ||| w) lo len = field v lo len ||| field w lo len :=
  BitVec.extractLsb'_or

/-- The field where `b` was placed is `b`, when the word has room for it. -/
@[simp] theorem field_place_self {n : Nat} (b : BitVec n) (lo : Nat) (fits : lo + n ≤ 16) : field (place b lo) lo n = b := by
  apply BitVec.eq_of_getElem_eq
  intro i hi
  rw [field_getElem, place_getLsbD, Nat.add_sub_cancel_left, BitVec.getLsbD_eq_getElem hi]
  simp only [show lo + i < 16 by omega, show ¬ lo + i < lo by omega, decide_true, decide_false, Bool.not_false, Bool.true_and]

/-- A field that lies apart from where `b` was placed is zero. -/
@[simp] theorem field_place_apart {n : Nat} (b : BitVec n) (start lo len : Nat) (apart : lo + len ≤ start ∨ start + n ≤ lo) :
    field (place b start) lo len = 0#len := by
  apply BitVec.eq_of_getElem_eq
  intro i hi
  rw [field_getElem, place_getLsbD, BitVec.getElem_zero]
  rcases apart with below | above
  · simp only [show lo + i < start by omega, decide_true, Bool.not_true, Bool.false_and, Bool.and_false]
  · rw [BitVec.getLsbD_of_ge b _ (by omega), Bool.and_false, Bool.and_false]

/-- A TRAP word whose vector selects no service is TRAP itself (R74, R161). -/
theorem decodeTrap_of_unknown {w : Word} (unknown : isServiceVector (field w 0 8) = false) :
    decodeTrap w = .trap (field w 8 4) (field w 0 8) := by
  rcases decodeTrap_cases w with ⟨h, -⟩ | ⟨h, -⟩ | ⟨h, -⟩ | ⟨h, -⟩ | ⟨h, -⟩ | ⟨h, -⟩ | ⟨-, e⟩
  case inr.inr.inr.inr.inr.inr => exact e
  all_goals exact absurd unknown (by rw [h]; decide)

/-- Every well-formed instruction is what the decoder reads from its word: each field it reads is one the encoder placed
(R66 to R75). -/
theorem decodeWord_encode (i : Instr) (wf : i.wellFormed = true) : decodeWord (encode i) = i := by
  cases i with
  | jmp hi base lo =>
    have notR7 : base ≠ 7 := by simpa [Instr.wellFormed] using wf
    simp [encode, placeReg, decodeWord, opcodeOf, decodeJmp, regField, notR7]
  | trap u v =>
    have notService : isServiceVector v = false := by simpa [Instr.wellFormed] using wf
    simp [encode, decodeWord, opcodeOf, decodeTrap_of_unknown, notService]
  | br | ld | st | ldr | str | rti | not | ldi | sti | res | lea =>
    simp [encode, placeReg, decodeWord, opcodeOf, regField]
  | addReg | addImm =>
    simp [encode, placeReg, decodeWord, opcodeOf, decodeAdd, regField]
  | andReg | andImm =>
    simp [encode, placeReg, decodeWord, opcodeOf, decodeAnd, regField]
  | jsr | jsrr =>
    simp [encode, placeReg, decodeWord, opcodeOf, decodeJsr, regField]
  | ret =>
    simp [encode, decodeWord, opcodeOf, decodeJmp, regField]
  | getc | out | puts | inp | putsp | halt =>
    simp [encode, decodeWord, opcodeOf, decodeTrap]

end Sys2Proof

namespace Sys2Proof.Machine

/-! ### One write -/

/-- Settles O26, by what a read gives after a write. -/
theorem writeChangesExactlyOneCell : Obligations.WriteChangesExactlyOneCell :=
  fun m addr v => ⟨by rw [read_write, if_pos rfl], fun a other => by rw [read_write, if_neg other]⟩

/-! ### The canonical form is unique -/

/-- In a canonical memory every entry is what its address reads as. -/
theorem cell_of_mem {m : Memory} (canonical : m.wf) {c : Cell} (listed : c ∈ m) : Memory.cell m c.1 = c.2 := by
  obtain ⟨rising, -⟩ := canonical
  induction rising with
  | nil => cases listed
  | @cons d rest below _ ih =>
    rcases List.mem_cons.1 listed with rfl | inRest
    · exact if_pos rfl
    · exact (if_neg (below c inRest).ne).trans (ih inRest)

/-- What an address reads as, when it is not the value of an unlisted cell, is an entry. -/
theorem mem_of_cell {m : Memory} {a : Nat} (nonzero : Memory.cell m a ≠ Config.unlistedWord) : (a, Memory.cell m a) ∈ m := by
  induction m with
  | nil => exact absurd rfl nonzero
  | cons c rest ih =>
    obtain ⟨k, v⟩ := c
    by_cases here : k = a
    · rw [Memory.cell, if_pos here, ← here]
      exact List.mem_cons_self
    · rw [Memory.cell, if_neg here] at nonzero ⊢
      exact List.mem_cons_of_mem _ (ih nonzero)

/-- The entries of a canonical memory are the addresses below 65536 that do not read as an unlisted cell, with what they
read as. -/
theorem mem_iff_read {m : Memory} (canonical : m.wf) (c : Cell) :
    c ∈ m ↔ ∃ a : Word, c = (a.toNat, m.read a) ∧ m.read a ≠ Config.unlistedWord := by
  constructor
  · intro listed
    obtain ⟨inRange, nonzero⟩ := canonical.2 c listed
    have address : (BitVec.ofNat 16 c.1).toNat = c.1 := (BitVec.toNat_ofNat _ _).trans (Nat.mod_eq_of_lt inRange)
    have value : m.read (BitVec.ofNat 16 c.1) = c.2 := by rw [Memory.read, address, cell_of_mem canonical listed]
    exact ⟨BitVec.ofNat 16 c.1, by rw [address, value], by rwa [value]⟩
  · rintro ⟨a, rfl, nonzero⟩
    exact mem_of_cell nonzero

/-- Settles O27: canonical memories that read alike have the same entries, and a strictly rising list is determined by its
entries. -/
theorem canonicalMemoriesThatReadAlikeAreEqual : Obligations.CanonicalMemoriesThatReadAlikeAreEqual := by
  intro m n canonicalM canonicalN alike
  have sameEntries (c : Cell) : c ∈ m ↔ c ∈ n := by
    simp only [mem_iff_read canonicalM, mem_iff_read canonicalN, alike]
  have : Std.Irrefl fun c d : Cell => c.1 < d.1 := ⟨fun c => lt_irrefl c.1⟩
  have : Std.Antisymm fun c d : Cell => c.1 < d.1 := ⟨fun _ _ below above => absurd below above.asymm⟩
  exact canonicalM.1.eq_of_mem_iff canonicalN.1 sameEntries

/-! ### `load_block` -/

/-- The address of the image's word `j + 1` is that of word `j` of the rest. -/
theorem imageAddress_succ (origin : Word) (j : Nat) : origin + 1 + BitVec.ofNat 16 j = origin + BitVec.ofNat 16 (j + 1) := by
  rw [BitVec.ofNat_add]; ac_rfl

/-- Writing a block changes no cell that is not one of its image's (R57). -/
theorem read_writeBlock_of_outside (values : List Word) (m : Memory) (origin a : Word)
    (outside : ∀ j < values.length, a ≠ origin + BitVec.ofNat 16 j) : (m.writeBlock origin values).read a = m.read a := by
  induction values generalizing m origin with
  | nil => rfl
  | cons v rest ih =>
    have notFirst : a ≠ origin := by simpa using outside 0 (by simp)
    have notInRest : ∀ j < rest.length, a ≠ origin + 1 + BitVec.ofNat 16 j := by
      intro j inRest
      rw [imageAddress_succ]
      exact outside (j + 1) (by simpa using inRest)
    rw [Memory.writeBlock, ih _ _ notInRest, read_write, if_neg notFirst]

/-- After writing a block of at most 65536 words, its `i`-th cell holds its `i`-th word (R57). -/
theorem read_writeBlock_image (values : List Word) (m : Memory) (origin : Word) (fits : values.length ≤ 65536) (i : Nat)
    (h : i < values.length) : (m.writeBlock origin values).read (origin + BitVec.ofNat 16 i) = values[i] := by
  induction values generalizing m origin i with
  | nil => cases h
  | cons v rest ih =>
    rw [List.length_cons] at fits
    cases i with
    | zero =>
      have outsideRest : ∀ j < rest.length, origin + BitVec.ofNat 16 0 ≠ origin + 1 + BitVec.ofNat 16 j := by
        intro j inRest
        rw [imageAddress_succ]
        bv_omega
      rw [Memory.writeBlock, read_writeBlock_of_outside _ _ _ _ outsideRest, read_write]
      simp
    | succ i =>
      rw [Memory.writeBlock, ← imageAddress_succ]
      exact ih _ _ (by omega) _ (Nat.lt_of_succ_lt_succ h)

/-- A load that fits writes its block (R57). -/
theorem loadBlock_of_fits {values : List Word} {origin : Word} (m : Memory)
    (fits : origin.toNat + values.length ≤ Config.memWords) : loadBlock values origin m = .next (m.writeBlock origin values) :=
  if_pos fits

/-- A load that passes the end of memory is refused (D23). -/
theorem loadBlock_of_not_fits {values : List Word} {origin : Word} (m : Memory)
    (passesEnd : Config.memWords < origin.toNat + values.length) : loadBlock values origin m = .refused .loadPastEnd :=
  if_neg (Nat.not_le.2 passesEnd)

/-- Settles O28: an image that fits overlaps no cell twice, and an address below or above it is none of its own. -/
theorem loadBlockWritesTheImage : Obligations.LoadBlockWritesTheImage := by
  refine fun values origin m => ⟨fun fits => ⟨_, loadBlock_of_fits m fits, ?_, ?_⟩, loadBlock_of_not_fits m⟩
  · exact read_writeBlock_image values m origin (by omega)
  · intro a apart
    refine read_writeBlock_of_outside values m origin a fun j inImage => ?_
    bv_omega

/-! ### Every step answers -/

/-- Settles O10: a running step executes a decoded word, which answers a next state; the step of an ended run stays. -/
theorem everyStepAnswersANextState : Obligations.EveryStepAnswersANextState := by
  intro s
  rcases step_cases s with ⟨-, runs⟩ | ⟨-, stays⟩
  · obtain ⟨t, answers, -⟩ := exec_effect s.fetch.ir s.fetch
    exact ⟨t, runs.trans answers⟩
  · exact ⟨s, stays⟩

/-! ### Stores -/

/-- A cell that an instruction changes is the one its store writes, and holds the stored value (R125 to R127). -/
theorem shape_read_changed {s t : State} {i : Instr} {a : Word} (h : Shape s i t) (changed : t.mem.read a ≠ s.mem.read a) :
    StoresAt s i a (t.mem.read a) := by
  cases h with
  | store addr v stores =>
    by_cases same : a = addr
    · rw [store_mem, read_write, if_pos same, same]
      exact stores
    · exact absurd (by rw [store_mem, read_write, if_neg same]) changed
  | define | jump | call | fatal | wait | again | wrote | halted | got | read => exact absurd rfl changed

/-- Settles O21, by the shapes a running step can have; the address is the one `StoresAt` computes on the state fetch left. -/
theorem memoryChangesOnlyByStores : Obligations.MemoryChangesOnlyByStores :=
  fun _ _ _ running stepped changed => shape_read_changed (step_shape running stepped) changed

/-- An instruction that stores answers the state with that cell written and nothing else changed. -/
theorem exec_of_storesAt {s : State} {i : Instr} {a v : Word} (h : StoresAt s i a v) : exec i s = .next (s.store a v) := by
  rcases h with ⟨sr, off, rfl, rfl, rfl⟩ | ⟨sr, off, rfl, rfl, rfl⟩ | ⟨sr, base, off, rfl, rfl, rfl⟩
  · exact exec_st s sr off
  · exact exec_sti s sr off
  · exact exec_str s sr base off

/-! ### The next fetch -/

/-- A running step executes the word in the cell at PC on the state its fetch leaves (R61). -/
theorem step_of_fetched_word {s : State} {w : Word} (running : s.runState = .running) (fetched : s.mem.read s.pc = w) :
    step s = exec (decodeWord w) { s with fetchPc := s.pc, ir := w, pc := s.pc + 1 } := by
  rw [← fetched]
  exact step_running s running

/-- A running step whose instruction stores `v` into the cell at the post-increment PC leaves `v` where the next step
fetches, and that step runs it (R55, D18). -/
theorem step_of_storesAt_pc {s : State} {v : Word} (running : s.runState = .running)
    (stores : StoresAt s.fetch (decodeWord (s.mem.read s.pc)) s.fetch.pc v) :
    ∃ t, step s = .next t ∧ t.pc = s.pc + 1 ∧ t.mem.read t.pc = v ∧
      step t = exec (decodeWord v) { t with fetchPc := t.pc, ir := v, pc := t.pc + 1 } := by
  have stored : (s.fetch.store s.fetch.pc v).fetch.ir = v := by rw [fetch_ir, store_mem, store_pc, read_write, if_pos rfl]
  exact ⟨s.fetch.store s.fetch.pc v, (step_running s running).trans (exec_of_storesAt stores), rfl, stored,
    step_of_fetched_word running stored⟩

/-- Settles O29: each of the three forms stores into the cell at the post-increment PC. -/
theorem storedWordIsFetchedNext : Obligations.StoredWordIsFetchedNext := by
  intro s sr running into
  apply step_of_storesAt_pc running
  rcases into with ⟨off, decodes, next⟩ | ⟨off, decodes, next⟩ | ⟨base, off, decodes, next⟩
  · exact .inl ⟨sr, off, decodes, next.symm, rfl⟩
  · exact .inr (.inl ⟨sr, off, decodes, next.symm, rfl⟩)
  · exact .inr (.inr ⟨sr, base, off, decodes, next.symm, rfl⟩)

/-- Settles O8: the placed word is the encoding (R57), and the decoder reads the instruction back from it. -/
theorem placedInstructionRunsNext : Obligations.PlacedInstructionRunsNext := by
  intro s i wf
  have placed : (s.withFetchWord 16 (encode i).toNat).fetch.ir = encode i := by
    rw [withFetchWord_ir, Nat.mod_eq_of_lt (encode i).isLt, BitVec.ofNat_toNat, BitVec.setWidth_eq]
  refine ⟨?_, placed, rfl, rfl⟩
  rw [step_running _ rfl, placed, decodeWord_encode i wf]

end Sys2Proof.Machine
end

section
/-! SUPPORT. Claims of 30_encoding.md: decoder and encoder are inverse (R66 to R75, R79), the rows of the opcode table, the
bits a format does not read (R77, D5), and the instruction cycle (R60, R61, R83). -/

namespace Sys2Proof

/-! ### A field as the bits under a mask -/

/-- The bits that `field w lo n` reads. -/
def fieldMask (lo n : Nat) : Word := place (BitVec.allOnes n) lo

/-- What is placed from `lo` up lies under the mask of its field. -/
theorem place_and_fieldMask {n : Nat} (b : BitVec n) (lo : Nat) : place b lo &&& fieldMask lo n = place b lo := by
  simp only [fieldMask, place, ← BitVec.shiftLeft_and_distrib, ← BitVec.setWidth_and, BitVec.and_allOnes]

/-- A mask apart from the field clears what is placed there. -/
theorem place_and_of_apart {n : Nat} (b : BitVec n) (lo : Nat) {mask : Word} (apart : fieldMask lo n &&& mask = 0#16) :
    place b lo &&& mask = 0#16 := by
  rw [← place_and_fieldMask, BitVec.and_assoc, apart, BitVec.and_zero]

/-- Putting a field back where it was read keeps the word's bits under the field's mask. -/
theorem place_field (w : Word) (lo n : Nat) : place (field w lo n) lo = w &&& fieldMask lo n := by
  apply BitVec.eq_of_getElem_eq
  intro i hi
  rw [place_getElem, BitVec.getElem_and, fieldMask, place_getElem, BitVec.getLsbD_allOnes, ← BitVec.getLsbD_eq_getElem]
  by_cases below : i < lo
  · simp [below]
  · by_cases inField : i - lo < n
    · rw [BitVec.getLsbD_eq_getElem inField, field_getElem, Nat.add_sub_cancel' (Nat.le_of_not_lt below)]
      simp [below, inField]
    · rw [BitVec.getLsbD_of_ge _ _ (Nat.le_of_not_lt inField)]
      simp [inField]

/-- The same of a field that names a register. -/
theorem placeReg_regField (w : Word) (lo : Nat) : placeReg (regField w lo) lo = w &&& fieldMask lo 3 := place_field w lo 3

/-- A word whose field holds `c` has `c`'s bits under the field's mask. -/
theorem place_of_field_eq {w : Word} {lo n : Nat} {c : BitVec n} (h : field w lo n = c) : place c lo = w &&& fieldMask lo n := by
  rw [← h, place_field]

/-- Words that agree under a mask agree in every field the mask covers. -/
theorem field_eq_of_and_eq {w w' mask : Word} (agree : w &&& mask = w' &&& mask) {lo n : Nat} (fits : lo + n ≤ 16)
    (covered : mask &&& fieldMask lo n = fieldMask lo n) : field w lo n = field w' lo n := by
  have placed : place (field w lo n) lo = place (field w' lo n) lo := by
    rw [place_field, place_field, ← covered, ← BitVec.and_assoc, ← BitVec.and_assoc, agree]
  rw [← field_place_self (field w lo n) lo fits, placed, field_place_self _ lo fits]

/-- A word is its bits under a mask that covers it. -/
theorem and_of_cover (w : Word) {mask : Word} (cover : mask = BitVec.allOnes 16) : w &&& mask = w := by
  rw [cover, BitVec.and_allOnes]

/-! ### The encoder writes back what the decoder read

In each form the fields the decoder reads are put back where they were, the fields that tell the form apart are those of the
word, and their masks together cover it. -/

/-- The fields of ADD's two forms cover the word (R66, R67). -/
theorem encode_decodeAdd {w : Word} (op : field w 12 4 = 0x1#4) : encode (decodeAdd w) = w := by
  rcases BitVec.eq_zero_or_eq_one (field w 5 1) with mode | mode <;>
    simp (disch := decide) only [decodeAdd, mode, BitVec.reduceEq, ↓reduceIte, encode, placeReg_regField,
      place_of_field_eq op, place_of_field_eq mode, place_field, ← BitVec.and_or_distrib_left, and_of_cover]

/-- The fields of AND's two forms cover the word (R66, R67). -/
theorem encode_decodeAnd {w : Word} (op : field w 12 4 = 0x5#4) : encode (decodeAnd w) = w := by
  rcases BitVec.eq_zero_or_eq_one (field w 5 1) with mode | mode <;>
    simp (disch := decide) only [decodeAnd, mode, BitVec.reduceEq, ↓reduceIte, encode, placeReg_regField,
      place_of_field_eq op, place_of_field_eq mode, place_field, ← BitVec.and_or_distrib_left, and_of_cover]

/-- The fields of JSRR and of JSR cover the word (R71, R72). -/
theorem encode_decodeJsr {w : Word} (op : field w 12 4 = 0x4#4) : encode (decodeJsr w) = w := by
  rcases BitVec.eq_zero_or_eq_one (field w 11 1) with mode | mode <;>
    simp (disch := decide) only [decodeJsr, mode, BitVec.reduceEq, ↓reduceIte, encode, placeReg_regField,
      place_of_field_eq op, place_of_field_eq mode, place_field, ← BitVec.and_or_distrib_left, and_of_cover]

/-- The fields of JMP and of RET cover the word (R73, R142). -/
theorem encode_decodeJmp {w : Word} (op : field w 12 4 = 0xC#4) : encode (decodeJmp w) = w := by
  by_cases isRet : regField w 6 = 7
  · have base : field w 6 3 = 7#3 := (regField_eq_iff w 6 7).1 isRet
    simp (disch := decide) only [decodeJmp, isRet, ↓reduceIte, encode, place_of_field_eq op, place_of_field_eq base,
      place_field, ← BitVec.and_or_distrib_left, and_of_cover]
  · simp (disch := decide) only [decodeJmp, isRet, ↓reduceIte, encode, placeReg_regField, place_of_field_eq op,
      place_field, ← BitVec.and_or_distrib_left, and_of_cover]

/-- The fields of TRAP and of the six services cover the word (R74, R78). -/
theorem encode_decodeTrap {w : Word} (op : field w 12 4 = 0xF#4) : encode (decodeTrap w) = w := by
  rcases decodeTrap_cases w with ⟨v, e⟩ | ⟨v, e⟩ | ⟨v, e⟩ | ⟨v, e⟩ | ⟨v, e⟩ | ⟨v, e⟩ | ⟨-, e⟩
  case inr.inr.inr.inr.inr.inr =>
    simp (disch := decide) only [e, encode, place_of_field_eq op, place_field, ← BitVec.and_or_distrib_left, and_of_cover]
  all_goals
    simp (disch := decide) only [e, encode, place_of_field_eq op, place_of_field_eq v, place_field,
      ← BitVec.and_or_distrib_left, and_of_cover]

/-- Every word is the encoding of what it decodes to: an opcode with several forms has its lemma above, and the fields of
each other opcode's one form cover the word (R66 to R75). -/
theorem encode_decodeWord (w : Word) : encode (decodeWord w) = w := by
  rcases decodeWord_cases w with ⟨op, e⟩ | ⟨op, e⟩ | ⟨op, e⟩ | ⟨op, e⟩ | ⟨op, e⟩ | ⟨op, e⟩ | ⟨op, e⟩ | ⟨op, e⟩ | ⟨op, e⟩ |
    ⟨op, e⟩ | ⟨op, e⟩ | ⟨op, e⟩ | ⟨op, e⟩ | ⟨op, e⟩ | ⟨op, e⟩ | ⟨op, e⟩ <;>
  simp (disch := exact op) only [e, encode_decodeAdd, encode_decodeAnd, encode_decodeJsr, encode_decodeJmp, encode_decodeTrap]
  all_goals
    simp (disch := decide) only [encode, placeReg_regField, place_of_field_eq op, place_field,
      ← BitVec.and_or_distrib_left, and_of_cover]

/-- What the decoder answers is well-formed: no JMP through R7, and no TRAP with a service's vector (log entry 12). -/
theorem decodeWord_wellFormed (w : Word) : (decodeWord w).wellFormed = true := by
  cases h : decodeWord w with
  | jmp hi base lo =>
    have notR7 : base ≠ 7 := by rintro rfl; exact decodeWord_ne_jmp7 w hi lo h
    simpa [Instr.wellFormed] using notR7
  | trap u v =>
    obtain ⟨-, -, notService⟩ := decodeWord_trap h
    simp [Instr.wellFormed, notService]
  | _ => rfl

/-- Settles O1, by `decodeWord_encode`: each field the decoder reads is one the encoder placed. -/
theorem decodeOfEncodeIsTheInstruction : Obligations.DecodeOfEncodeIsTheInstruction := decodeWord_encode

/-- Settles O2: the fields the decoder reads cover the word. -/
theorem encodeOfDecodeIsTheWord : Obligations.EncodeOfDecodeIsTheWord :=
  fun w => ⟨decodeWord_wellFormed w, encode_decodeWord w⟩

/-! ### The rows of the opcode table -/

/-- The pattern and mask of a row, as `baseRows` and `aliasRows` hold them. -/
def Row.key (r : Row) : Word × Word := (r.pattern, r.mask)

/-- An instruction has the word of its base instruction. -/
theorem encode_base (i : Instr) : encode i.base = encode i := by cases i <;> rfl

/-- The word of an instruction is one of its row: the row's mask keeps the fields that are fixed and clears the operands. -/
theorem encode_and_mask (i : Instr) : encode i &&& i.row.mask = i.row.pattern := by
  cases i <;>
    simp (disch := decide) only [encode, placeReg, Instr.row, BitVec.and_or_distrib_right, place_and_of_apart] <;> decide

/-- A word is one of the row of what it decodes to (R79). -/
theorem decodeWord_row_matches (w : Word) : w &&& (decodeWord w).row.mask = (decodeWord w).row.pattern := by
  rw [← encode_and_mask, encode_decodeWord]

/-- A word is one of the base row of what it decodes to (R79). -/
theorem decodeWord_base_row_matches (w : Word) :
    w &&& (decodeWord w).base.row.mask = (decodeWord w).base.row.pattern := by
  rw [← encode_and_mask, encode_base, encode_decodeWord]

/-- The row of a base instruction is a base row. -/
theorem base_row_key_mem (i : Instr) : i.base.row.key ∈ baseRows := by
  cases i <;> simp [Instr.base, Instr.row, Row.key, baseRows]

/-- Any two base rows differ in a bit that both fix. -/
theorem baseRows_apart : baseRows.Pairwise (fun r q => r.1 &&& q.2 ≠ q.1 &&& r.2) := by decide

/-- A word is of at most one base row. -/
theorem baseRow_unique {w : Word} {r q : Word × Word} (rListed : r ∈ baseRows) (qListed : q ∈ baseRows)
    (isR : w &&& r.2 = r.1) (isQ : w &&& q.2 = q.1) : r = q := by
  have meet : r.1 &&& q.2 = q.1 &&& r.2 := by rw [← isR, ← isQ]; ac_rfl
  have : Std.Symm fun r q : Word × Word => r.1 &&& q.2 ≠ q.1 &&& r.2 := ⟨fun _ _ => Ne.symm⟩
  by_contra differ
  exact baseRows_apart.forall rListed qListed differ meet

/-- Exactly one base row is a word's: that of what the word decodes to. -/
theorem length_filter_baseRows (w : Word) : (baseRows.filter (fun r => w &&& r.2 = r.1)).length = 1 := by
  have only : ∀ r ∈ baseRows, w &&& r.2 = r.1 ↔ r = (decodeWord w).base.row.key := fun r listed =>
    ⟨fun isRow => baseRow_unique listed (base_row_key_mem _) isRow (decodeWord_base_row_matches w),
      by rintro rfl; exact decodeWord_base_row_matches w⟩
  rw [← List.countP_eq_length_filter, List.countP_congr (q := (· == (decodeWord w).base.row.key)) (by simpa using only)]
  exact List.count_eq_one_of_mem (by decide) (base_row_key_mem _)

/-- A word of a row has the row's value in every field the row fixes. -/
theorem field_of_row {w pattern mask : Word} (isRow : w &&& mask = pattern) (lo n : Nat) (fits : lo + n ≤ 16)
    (fixed : mask &&& fieldMask lo n = fieldMask lo n) : field w lo n = field pattern lo n :=
  field_eq_of_and_eq (by rw [← isRow, BitVec.and_assoc, BitVec.and_self]) fits fixed

/-- A word of RET's row or of a service's decodes to that row's instruction: the row fixes the opcode and the field that
tells its instruction from the base row's (R142, R78, log entry 12). -/
theorem decodeWord_row_of_aliasRow {w : Word} : ∀ r ∈ aliasRows, w &&& r.2 = r.1 → (decodeWord w).row.key = r := by
  refine List.forall_mem_cons.2 ⟨fun isRet => ?_, fun r service isRow => ?_⟩
  · have op : field w 12 4 = 0xC#4 := field_of_row isRet 12 4 (by decide) (by decide)
    have base : field w 6 3 = 7#3 := field_of_row isRet 6 3 (by decide) (by decide)
    simp [decodeWord, op, opcodeOf, decodeJmp, regField, base, Instr.row, Row.key]
  · simp only [List.mem_cons, List.not_mem_nil, or_false] at service
    rcases service with rfl | rfl | rfl | rfl | rfl | rfl
    all_goals
      have op : field w 12 4 = 0xF#4 := field_of_row isRow 12 4 (by decide) (by decide)
      have vector := field_of_row isRow 0 8 (by decide) (by decide)
      simp only [decodeWord, op, opcodeOf, decodeTrap, vector]
      rfl

/-- Settles O4: a word is of the rows of what it decodes to, base rows are apart, and a row that fixes a service's vector or
RET's BaseR is what the decoder tests. -/
theorem everyWordMatchesOneBaseRow : Obligations.EveryWordMatchesOneBaseRow :=
  fun w => ⟨length_filter_baseRows w, base_row_key_mem _, decodeWord_base_row_matches w, decodeWord_row_matches w,
    decodeWord_row_of_aliasRow⟩

end Sys2Proof

namespace Sys2Proof.Machine

/-! ### Bits a format does not read -/

/-- A word that agrees with an instruction's in the bits the instruction reads executes as it (R77, D5): the fields the
decoder tests and the operands the instruction uses are read from those bits. Where a format reads every bit, the word is the
instruction's. -/
theorem exec_decodeWord_of_used_eq {i : Instr} {w : Word} (s : State) (wf : i.wellFormed = true)
    (agree : w &&& i.row.used = encode i &&& i.row.used) : exec (decodeWord w) s = exec i s := by
  have same (lo n : Nat) (fits : lo + n ≤ 16) (read : i.row.used &&& fieldMask lo n = fieldMask lo n) :
      field w lo n = field (encode i) lo n := field_eq_of_and_eq agree fits read
  cases i <;> simp only [Instr.row] at agree same
  case addReg => simp (disch := decide) [encode, placeReg, same, decodeWord, opcodeOf, regField, decodeAdd, exec_addReg]
  case andReg => simp (disch := decide) [encode, placeReg, same, decodeWord, opcodeOf, regField, decodeAnd, exec_andReg]
  case jsrr => simp (disch := decide) [encode, placeReg, same, decodeWord, opcodeOf, regField, decodeJsr, exec_jsrr]
  case not => simp (disch := decide) [encode, placeReg, same, decodeWord, opcodeOf, regField, exec_not]
  case rti => simp (disch := decide) [encode, same, decodeWord, opcodeOf, exec_rti]
  case res => simp (disch := decide) [encode, same, decodeWord, opcodeOf, exec_res]
  case jmp hi base lo =>
    have notR7 : base ≠ 7 := by simpa [Instr.wellFormed] using wf
    simp (disch := decide) [encode, placeReg, same, decodeWord, opcodeOf, regField, decodeJmp, notR7, exec_jmp]
  case ret => simp (disch := decide) [encode, same, decodeWord, opcodeOf, regField, decodeJmp, exec_ret]
  case trap u v =>
    have notService : isServiceVector v = false := by simpa [Instr.wellFormed] using wf
    have unknown : isServiceVector (field w 0 8) = false := by simp (disch := decide) [encode, same, notService]
    simp (disch := decide) [encode, same, decodeWord, opcodeOf, decodeTrap_of_unknown unknown, exec_trap]
  case getc | out | puts | inp | putsp | halt =>
    simp (disch := decide) [encode, same, decodeWord, opcodeOf, decodeTrap, exec_getc, exec_out, exec_puts, exec_inp,
      exec_putsp, exec_halt]
  case br | addImm | ld | st | jsr | andImm | ldr | str | ldi | sti | lea =>
    simp (disch := decide) only [and_of_cover] at agree
    rw [agree, decodeWord_encode _ wf]

/-- Settles O5: the first word is the encoding of what it decodes to, so the second agrees with that instruction's word. -/
theorem unusedBitsAreIgnored : Obligations.UnusedBitsAreIgnored := by
  intro w w' s agree
  have agreeEncoded : w' &&& (decodeWord w).row.used = encode (decodeWord w) &&& (decodeWord w).row.used := by
    rw [encode_decodeWord, agree]
  exact (exec_decodeWord_of_used_eq s (decodeWord_wellFormed w) agreeEncoded).symm

/-! ### The instruction cycle -/

/-- Settles O7: the fetched word is the one at PC. -/
theorem stepRunsTheDecodedInstruction : Obligations.StepRunsTheDecodedInstruction :=
  fun _ running => step_of_fetched_word running rfl

/-- Settles O9: of the two things a step can be, the run that has ended has the one that stays. -/
theorem endedRunStaysAsItIs : Obligations.EndedRunStaysAsItIs := by
  intro s notRunning
  rcases step_cases s with ⟨running, -⟩ | ⟨-, stays⟩
  · exact absurd running notRunning
  · exact stays

/-- A branch on no flag is never taken, whatever COND holds (R83, R140). -/
theorem branchTaken_none (cond : Word) : branchTaken 0#3 cond = false := by
  simp [branchTaken]

/-- Settles O11: the zero word is a branch on no flag. -/
theorem zeroWordChangesOnlyPc : Obligations.ZeroWordChangesOnlyPc := by
  intro s running zero
  have decodes : decodeWord 0x0000#16 = .br 0#3 0#9 := by decide
  rw [step_of_fetched_word running zero, decodes, exec_br, branchTaken_none]
  rfl

end Sys2Proof.Machine
end

section
/-! SUPPORT. Claims of 41_operate.md: the flag of a value (R100), who writes COND (R101), and ADD, AND, NOT (R102 to R106). -/

namespace Sys2Proof.Machine

/-! ### The flag of a value -/

/-- The flag of a value goes by its sign as a two's-complement number (R100). -/
theorem flagOf_eq_sign (v : Word) :
    flagOf v = if v.toInt = 0 then Config.zero else if v.toInt < 0 then Config.negative else Config.positive := by
  have isZero : v = 0x0000#16 ↔ v.toInt = 0 := BitVec.toInt_inj.symm
  have topBit : v.getLsbD 15 = decide (v.toInt < 0) := (BitVec.msb_eq_getLsbD_last v).symm.trans BitVec.msb_eq_toInt
  simp only [flagOf, isZero, topBit, decide_eq_true_eq]

/-- Settles O31: `setcc` writes COND only, and the three signs exclude each other. -/
theorem flagIsTheSignOfTheValue : Obligations.FlagIsTheSignOfTheValue := by
  intro s v
  unfold State.setcc
  rw [flagOf_eq_sign]
  refine ⟨fun isZero => ?_, fun isNegative => ?_, fun isPositive => ?_⟩
  · rw [if_pos isZero]; rfl
  · rw [if_neg (by omega), if_pos isNegative]; rfl
  · rw [if_neg (by omega), if_neg (by omega)]; rfl

/-! ### Who writes COND -/

/-- An instruction with a DR leaves COND as the flag of what that register now holds (R101). -/
theorem shape_cond_of_defined {s t : State} {i : Instr} {dr : Reg} (h : Shape s i t) (d : defined i = some dr) :
    t.cond = flagOf (t.reg dr) := by
  cases h with
  | define dr' v d' =>
    obtain rfl : dr' = dr := by simpa [d] using d'.symm
    rw [reg_define, if_pos rfl, define_cond]
  | store _ _ k => simp [(storesAt_kind k).1] at d
  | jump _ _ noDr | call _ _ _ noDr | fatal _ _ noDr | wait _ noDr | again _ noDr | wrote _ noDr => simp [noDr] at d
  | halted _ _ isService | got _ _ _ isService | read _ _ _ isService => simp [isService, defined] at d

/-- An IN completes, with COND the flag of the byte in R0, or is back at its own address with COND as before (R101, R203,
D8). -/
theorem shape_cond_of_inp {s t : State} {u : BitVec 4} (h : Shape s (.inp u) t) :
    (t.pc = s.pc ∧ t.cond = flagOf (t.reg 0)) ∨ (t.pc = s.fetchPc ∧ t.cond = s.cond) := by
  cases h with
  | read b => exact .inl ⟨rfl, congrArg flagOf (reg_setReg_self (trapEntry s) 0 (zextByte b)).symm⟩
  | fatal | wait => exact .inr ⟨rfl, rfl⟩
  | define _ _ d => cases d
  | store _ _ k => cases (storesAt_kind k).2.1
  | jump _ c | call _ c => cases c
  | again _ _ _ _ string => cases string
  | wrote _ _ _ noWait => cases noWait
  | halted _ _ isHalt => cases isHalt
  | got _ _ _ isGetc => cases isGetc

/-- An instruction that has no DR and is no IN leaves COND alone (R101). -/
theorem shape_cond_of_other {s t : State} {i : Instr} (h : Shape s i t) (d : defined i = none) (notIn : ∀ u, i ≠ .inp u) :
    t.cond = s.cond := by
  cases h with
  | define _ _ d' => exact absurd (d.symm.trans d') nofun
  | read _ _ u isIn => exact absurd isIn (notIn u)
  | store | jump | call | fatal | wait | again | wrote | halted | got => rfl

/-- Settles O23, by the shapes a running step can have. -/
theorem condIsWrittenByExactlyTheseInstructions : Obligations.CondIsWrittenByExactlyTheseInstructions := by
  intro s t running stepped
  have shape := step_shape running stepped
  refine ⟨fun _ => shape_cond_of_defined shape, ?_, shape_cond_of_other (s := s.fetch) shape⟩
  rintro ⟨u, isIn⟩
  exact shape_cond_of_inp (isIn ▸ shape)

/-! ### ADD, AND, NOT -/

/-- Defining a register writes it and COND, and leaves everything else (R101). -/
theorem define_defines (s : State) (dr : Reg) (v : Word) : Defines dr v s (s.define dr v) := by
  refine ⟨reg_setReg_self s dr v, rfl, fun r notDr => ?_, rfl, fun _ => rfl, rfl, rfl, rfl, rfl, rfl⟩
  exact reg_setReg_of_ne s dr r v (List.ne_of_not_mem_cons notDr)

/-- Opcode 1 is ADD (R64, D1). -/
theorem decodeWord_of_add {w : Word} (op : field w 12 4 = 0x1#4) : decodeWord w = decodeAdd w := by
  rw [decodeWord, op]; rfl

/-- Opcode 5 is AND (R64, D1). -/
theorem decodeWord_of_and {w : Word} (op : field w 12 4 = 0x5#4) : decodeWord w = decodeAnd w := by
  rw [decodeWord, op]; rfl

/-- Settles O32: bit 5 clear selects the register form. -/
theorem addRegister : Obligations.AddRegister := by
  refine ⟨fun w op mode => ?_, fun dr sr1 sr2 u s => ⟨_, exec_addReg s dr sr1 sr2 u, define_defines s dr _⟩⟩
  rw [decodeWord_of_add op, decodeAdd, if_neg (by simp [mode])]

/-- Settles O33: bit 5 set selects the immediate form. -/
theorem addImmediate : Obligations.AddImmediate := by
  refine ⟨fun w op mode => ?_, fun dr sr1 imm5 s => ⟨_, exec_addImm s dr sr1 imm5, define_defines s dr _⟩⟩
  rw [decodeWord_of_add op, decodeAdd, if_pos mode]

/-- Settles O34: bit 5 clear selects the register form. -/
theorem andRegister : Obligations.AndRegister := by
  refine ⟨fun w op mode => ?_, fun dr sr1 sr2 u s => ⟨_, exec_andReg s dr sr1 sr2 u, define_defines s dr _⟩⟩
  rw [decodeWord_of_and op, decodeAnd, if_neg (by simp [mode])]

/-- Settles O35: bit 5 set selects the immediate form. -/
theorem andImmediate : Obligations.AndImmediate := by
  refine ⟨fun w op mode => ?_, fun dr sr1 imm5 s => ⟨_, exec_andImm s dr sr1 imm5, define_defines s dr _⟩⟩
  rw [decodeWord_of_and op, decodeAnd, if_pos mode]

/-- Settles O36: opcode 9 has one form. -/
theorem notComplements : Obligations.NotComplements := by
  refine ⟨fun w op => ?_, fun dr sr u s => ⟨_, exec_not s dr sr u, define_defines s dr _⟩⟩
  rw [decodeWord, op]; rfl

end Sys2Proof.Machine
end

section
/-! SUPPORT. Claims of 42_data_movement.md: the loads and LEA define DR (R121 to R124), the stores write one cell (R125 to
R128). -/

namespace Sys2Proof.Machine

/-! ### Loads and LEA -/

/-- Settles O37: LD defines DR from the PC-relative cell. -/
theorem loadPcRelative : Obligations.LoadPcRelative := by
  refine ⟨fun w op => ?_, fun dr off s => ⟨_, exec_ld s dr off, define_defines s dr _⟩⟩
  rw [decodeWord, op]; rfl

/-- Settles O38: LDI defines DR from the cell that the pointer cell names. -/
theorem loadIndirect : Obligations.LoadIndirect := by
  refine ⟨fun w op => ?_, fun dr off s => ⟨_, exec_ldi s dr off, define_defines s dr _⟩⟩
  rw [decodeWord, op]; rfl

/-- Settles O39: the value is read before DR is written, so DR may be BaseR. -/
theorem loadBaseOffset : Obligations.LoadBaseOffset := by
  refine ⟨fun w op => ?_, fun dr base off s => ⟨_, exec_ldr s dr base off, define_defines s dr _⟩⟩
  rw [decodeWord, op]; rfl

/-- Settles O40: LEA defines DR from the address itself. -/
theorem loadEffectiveAddress : Obligations.LoadEffectiveAddress := by
  refine ⟨fun w op => ?_, fun dr off s => ⟨_, exec_lea s dr off, define_defines s dr _⟩⟩
  rw [decodeWord, op]; rfl

/-! ### Stores -/

/-- A store writes its cell, and leaves every other cell, the registers, COND and PC (R43, R128). -/
theorem store_stores (s : State) (addr v : Word) : Stores addr v s (s.store addr v) := by
  obtain ⟨written, others⟩ := writeChangesExactlyOneCell s.mem addr v
  exact ⟨written, others, fun _ _ => rfl, rfl, rfl, rfl, rfl, rfl, rfl, rfl⟩

/-- Settles O41: ST stores into the PC-relative cell. -/
theorem storePcRelative : Obligations.StorePcRelative := by
  refine ⟨fun w op => ?_, fun sr off s => ⟨_, exec_st s sr off, store_stores s _ _⟩⟩
  rw [decodeWord, op]; rfl

/-- Settles O42: the address is the pointer read on the state before the write, so the pointer cell may name itself. -/
theorem storeIndirect : Obligations.StoreIndirect := by
  refine ⟨fun w op => ?_, fun sr off s => ⟨_, exec_sti s sr off, store_stores s _ _⟩⟩
  rw [decodeWord, op]; rfl

/-- Settles O43: STR stores into the cell at base plus offset. -/
theorem storeBaseOffset : Obligations.StoreBaseOffset := by
  refine ⟨fun w op => ?_, fun sr base off s => ⟨_, exec_str s sr base off, store_stores s _ _⟩⟩
  rw [decodeWord, op]; rfl

end Sys2Proof.Machine
end

section
/-! SUPPORT. Claims of 43_control.md: a branch, a jump and a call move PC and no more than the link (R140 to R144), and an
alias row executes as its base row (30_encoding.md, opening; R142). -/

namespace Sys2Proof.Machine

/-! ### Writing PC, with and without the link -/

/-- A jump writes PC and leaves everything else (R140 to R142). -/
theorem setPc_transfers (s : State) (target : Word) : Transfers target none s (s.setPc target) :=
  ⟨rfl, nofun, fun r _ => reg_setPc s r target, rfl, fun _ => rfl, rfl, rfl, rfl, rfl, rfl⟩

/-- A call writes the return address to R7 and then PC, and leaves everything else (R143, R144). -/
theorem link_setPc_transfers (s : State) (target : Word) : Transfers target (some s.pc) s (s.link.setPc target) := by
  refine ⟨rfl, fun v isPc => ?_, fun r notR7 => ?_, rfl, fun _ => rfl, rfl, rfl, rfl, rfl, rfl⟩
  · obtain rfl : s.pc = v := Option.some.inj isPc
    exact reg_setReg_self s 7 s.pc
  · exact reg_setReg_of_ne s 7 r s.pc (List.ne_of_not_mem_cons notR7)

/-! ### BR -/

/-- BR goes to its target when mask and COND meet, and to the next instruction otherwise (R140). -/
theorem exec_br_setPc (s : State) (nzp : BitVec 3) (off : BitVec 9) :
    exec (.br nzp off) s =
      .next (s.setPc (if nzp.setWidth 16 &&& s.cond = 0x0000#16 then s.pc else s.pcRelative off)) := by
  rw [exec_br]
  by_cases apart : nzp.setWidth 16 &&& s.cond = 0x0000#16
  · rw [if_pos apart, if_neg (by simp [branchTaken, apart])]; rfl
  · rw [if_neg apart, if_pos (by simp [branchTaken, apart])]

/-- The mask meets a word whose one bit is bit `i` exactly when it has that bit. -/
theorem mask_meets_bit_iff (nzp : BitVec 3) {c : Word} {i : Nat} (fits : i < 16) (oneBit : c = BitVec.twoPow 16 i) :
    nzp.setWidth 16 &&& c ≠ 0x0000#16 ↔ nzp.getLsbD i = true := by
  have nonzero : BitVec.twoPow 16 i ≠ 0x0000#16 := by
    simp [← BitVec.toNat_inj, BitVec.toNat_twoPow_of_lt fits]
  simp [oneBit, BitVec.and_twoPow, fits, nonzero]

/-- The flag values are the single bits 2, 1 and 0, so the mask bits n, z, p test NEGATIVE, ZERO, POSITIVE (R140, D2). -/
theorem mask_meets_legal_cond_iff (nzp : BitVec 3) {c : Word} (legal : CondLegal c) :
    nzp.setWidth 16 &&& c ≠ 0x0000#16 ↔
      (c = 0x0004#16 ∧ nzp.getLsbD 2 = true) ∨ (c = 0x0002#16 ∧ nzp.getLsbD 1 = true) ∨
        (c = 0x0001#16 ∧ nzp.getLsbD 0 = true) := by
  rcases legal with rfl | rfl | rfl
  · simpa [Config.negative] using mask_meets_bit_iff nzp (c := Config.negative) (i := 2) (by decide) (by decide)
  · simpa [Config.zero] using mask_meets_bit_iff nzp (c := Config.zero) (i := 1) (by decide) (by decide)
  · simpa [Config.positive] using mask_meets_bit_iff nzp (c := Config.positive) (i := 0) (by decide) (by decide)

/-- Settles O44: BR is a write of PC, and a legal COND holds one bit. -/
theorem branchTestsTheFlags : Obligations.BranchTestsTheFlags := by
  refine ⟨fun w op => ?_, fun nzp off s =>
    ⟨_, exec_br_setPc s nzp off, setPc_transfers s _, mask_meets_legal_cond_iff nzp⟩⟩
  rw [decodeWord, op]; rfl

/-! ### JMP and RET -/

/-- Opcode 12 is JMP (R64, D1). -/
theorem decodeWord_of_jmp {w : Word} (op : field w 12 4 = 0xC#4) : decodeWord w = decodeJmp w := by
  rw [decodeWord, op]; rfl

/-- Settles O45: JMP and RET are writes of PC, and the base field is 7 exactly when its three bits are set. -/
theorem jumpThroughARegister : Obligations.JumpThroughARegister := by
  refine ⟨fun w op => ?_, fun hi base lo s =>
    ⟨⟨_, exec_jmp s hi base lo, setPc_transfers s _⟩, _, exec_ret s hi lo, setPc_transfers s _⟩⟩
  rw [decodeWord_of_jmp op, decodeJmp]
  exact if_congr (regField_eq_iff w 6 7) rfl rfl

/-! ### JSR and JSRR -/

/-- Opcode 4 is JSR or JSRR (R64, D1). -/
theorem decodeWord_of_jsr {w : Word} (op : field w 12 4 = 0x4#4) : decodeWord w = decodeJsr w := by
  rw [decodeWord, op]; rfl

/-- Settles O46: bit 11 set selects JSR. -/
theorem subroutineCallPcRelative : Obligations.SubroutineCallPcRelative := by
  refine ⟨fun w op mode => ?_, fun off s => ⟨_, exec_jsr s off, link_setPc_transfers s _⟩⟩
  rw [decodeWord_of_jsr op, decodeJsr, if_pos mode]

/-- Settles O47: bit 11 clear selects JSRR, and BaseR is read after the link (D6). -/
theorem subroutineCallThroughARegister : Obligations.SubroutineCallThroughARegister := by
  refine ⟨fun w op mode => ?_, fun hi base lo s => ⟨_, exec_jsrr s hi base lo, ?_⟩⟩
  · rw [decodeWord_of_jsr op, decodeJsr, if_neg (by simp [mode])]
  · rw [← reg_link]
    exact link_setPc_transfers s _

/-! ### The alias rows -/

/-- TRAP with a service's vector runs that service (R160). -/
theorem exec_trap_of_service {v : BitVec 8} {service : State → ServiceAnswer} (selects : serviceOf v = some service)
    (s : State) (u : BitVec 4) : exec (.trap u v) s = .next (runService service s) := by
  rw [exec_trap, selects]

/-- Settles O6: RET is JMP R7, each service is the TRAP whose vector selects it, and every other instruction is its own
base. -/
theorem aliasesExecuteAsTheirBase : Obligations.AliasesExecuteAsTheirBase := by
  intro i s
  cases i with
  | ret hi lo => exact (exec_jmp s hi 7 lo).symm
  | getc u => exact (exec_trap_of_service (v := 0x20#8) rfl s u).symm
  | out u => exact (exec_trap_of_service (v := 0x21#8) rfl s u).symm
  | puts u => exact (exec_trap_of_service (v := 0x22#8) rfl s u).symm
  | inp u => exact (exec_trap_of_service (v := 0x23#8) rfl s u).symm
  | putsp u => exact (exec_trap_of_service (v := 0x24#8) rfl s u).symm
  | halt u => exact (exec_trap_of_service (v := 0x25#8) rfl s u).symm
  | _ => rfl

end Sys2Proof.Machine
end

section
/-! SUPPORT. Claims of 44_system.md: RTI, RES and an unknown vector are fatal (R161 to R163, R203), and a recognised TRAP
links, runs its service and goes on or halts (R160, R170, R207; R171 to R176). -/

namespace Sys2Proof.Machine

/-! ### Fatal outcomes -/

/-- A fatal error whose channels differ from the state's by `written` is the Fatal outcome after `written` (R202, R203). -/
theorem raiseFatal_failsWith (why : Cause) (s : State) {written : List Byte} {io : Channels}
    (out : io.output = s.io.output ++ written) (inputKept : io.input = s.io.input) (endKept : io.inputEnded = s.io.inputEnded) :
    FailsWith why written s (raiseFatal why s io) :=
  ⟨rfl, rfl, fun _ _ => rfl, rfl, fun _ => rfl, out, inputKept, endKept, rfl, rfl, rfl⟩

/-- A fatal error before any byte went out leaves the channels as they were (R203). -/
theorem raiseFatal_failsWith_nil (why : Cause) (s : State) : FailsWith why [] s (raiseFatal why s s.io) :=
  raiseFatal_failsWith why s (List.append_nil _).symm rfl rfl

/-- Settles O48: opcodes 8 and 13 have one form each, and both raise the error on the channels as they are. -/
theorem rtiAndResAreFatal : Obligations.RtiAndResAreFatal := by
  refine ⟨fun w op => ?_, fun w op => ?_, fun u s =>
    ⟨⟨_, exec_rti s u, raiseFatal_failsWith_nil _ s, rfl⟩, _, exec_res s u, raiseFatal_failsWith_nil _ s, rfl⟩⟩
  · rw [decodeWord, op]; rfl
  · rw [decodeWord, op]; rfl

/-- A vector outside 0x20 to 0x25 selects no service (R161). -/
theorem serviceOf_of_unknown {v : BitVec 8} (unknown : isServiceVector v = false) : serviceOf v = none := by
  rcases serviceOf_cases v with ⟨h, -⟩ | ⟨h, -⟩ | ⟨h, -⟩ | ⟨h, -⟩ | ⟨h, -⟩ | ⟨h, -⟩ | ⟨-, noService⟩
  case inr.inr.inr.inr.inr.inr => exact noService
  all_goals exact absurd unknown (by rw [h]; decide)

/-- TRAP with an unknown vector is fatal, without TRAP entry (R161). -/
theorem exec_trap_of_unknown {v : BitVec 8} (unknown : isServiceVector v = false) (s : State) (u : BitVec 4) :
    exec (.trap u v) s = .next (raiseFatal .unknownTrapVector s s.io) := by
  rw [exec_trap, serviceOf_of_unknown unknown]

/-- Settles O49: no service is selected, so the error is raised on the state that fetch left. -/
theorem unknownTrapVectorIsFatal : Obligations.UnknownTrapVectorIsFatal := by
  intro u v s outside
  have unknown : isServiceVector v = false := by
    simp only [isServiceVector, Bool.and_eq_false_iff, decide_eq_false_iff_not]
    omega
  exact ⟨_, exec_trap_of_unknown unknown s u, raiseFatal_failsWith_nil _ s, rfl⟩

/-! ### Services that run to their end -/

theorem wroteAll_nil (io : Channels) : wroteAll [] io = io := by
  obtain ⟨_, _, _, room⟩ := io
  cases room <;> simp [wroteAll]

/-- IN writes its prompt unless it waited (R174, log entry 5). -/
theorem prompted_eq_wroteAll (s : State) : prompted s = wroteAll (if s.waiting then [] else Config.inPrompt) s.io := by
  unfold prompted
  split
  · exact (wroteAll_nil s.io).symm
  · rfl

/-- Under a sink that accepts `len` bytes, what can fail only within `len` bytes does not fail. -/
theorem of_sinkAccepts {io : Channels} {len : Nat} {success : Prop} {failure : Nat → Prop} (accepts : SinkAccepts io len)
    (h : success ∨ ∃ n, io.sinkRoom = some n ∧ n < len ∧ failure n) : success := by
  rcases h with ok | ⟨n, room, short, -⟩
  · exact ok
  · exact absurd (accepts n room) (by omega)

/-- GETC with a byte there (R171). -/
theorem runService_getc {s : State} {b : Byte} {rest : List Byte} (supplied : s.io.input = b :: rest) :
    runService serviceGetc s = ended ((trapEntry s).setReg 0 (zextByte b)) (took rest s.io) := by
  rcases getc_effect s with ⟨b', rest', input, e⟩ | ⟨empty, -⟩ | ⟨empty, -⟩
  · obtain ⟨rfl, rfl⟩ := List.cons.inj (supplied.symm.trans input)
    exact e
  all_goals exact absurd (supplied.symm.trans empty) nofun

/-- OUT under a sink that accepts a byte (R172). -/
theorem runService_out {s : State} (accepts : SinkAccepts s.io 1) :
    runService serviceOut s = ended (trapEntry s) (wroteAll [lowByte (s.reg 0)] s.io) := by
  have r0 : (trapEntry s).reg 0 = s.reg 0 := reg_setReg_of_ne s 7 0 s.pc (by decide)
  rw [← r0]
  exact of_sinkAccepts accepts ((out_effect s).imp_left And.right)

/-- PUTS under a sink that accepts the string (R173). -/
theorem runService_puts {s : State} {k : Nat} (string : StringAt s.mem (s.reg 0) k)
    (accepts : SinkAccepts s.io (lowBytes s.mem (s.reg 0) k).length) :
    runService servicePuts s = ended (trapEntry s) (wroteAll (lowBytes s.mem (s.reg 0) k) s.io) :=
  of_sinkAccepts accepts ((string_effect_ends putsBytes s k string _ (flatMap_putsBytes _ _ k)).imp_left And.right)

/-- PUTSP under a sink that accepts the string (R175). -/
theorem runService_putsp {s : State} {k : Nat} (string : StringAt s.mem (s.reg 0) k)
    (accepts : SinkAccepts s.io (packedBytes s.mem (s.reg 0) k).length) :
    runService servicePutsp s = ended (trapEntry s) (wroteAll (packedBytes s.mem (s.reg 0) k) s.io) :=
  of_sinkAccepts accepts ((string_effect_ends putspBytes s k string _ (flatMap_putspBytes _ _ k)).imp_left And.right)

/-- IN with a byte there, under a sink that accepts the prompt it has still to write (R174, log entry 5). -/
theorem runService_in {s : State} {b : Byte} {rest : List Byte} (supplied : s.io.input = b :: rest)
    (accepts : s.waiting = false → SinkAccepts s.io Config.inPrompt.length) :
    runService serviceIn s = ended ((trapEntry s).define 0 (zextByte b))
      (took rest (wroteAll (if s.waiting then [] else Config.inPrompt) s.io)) := by
  rw [← prompted_eq_wroteAll]
  rcases in_effect s with ⟨-, ⟨b', rest', input, e⟩ | ⟨empty, -⟩ | ⟨empty, -⟩⟩ | ⟨noWait, n, room, short, -⟩
  · obtain ⟨rfl, rfl⟩ := List.cons.inj (supplied.symm.trans input)
    exact e
  · exact absurd (supplied.symm.trans empty) nofun
  · exact absurd (supplied.symm.trans empty) nofun
  · exact absurd (accepts noWait n room) (by omega)

/-- HALT under a sink that accepts the notice (R176). -/
theorem runService_halt {s : State} (accepts : SinkAccepts s.io Config.haltNotice.length) :
    runService serviceHalt s =
      { ended (trapEntry s) (wroteAll Config.haltNotice s.io) with runState := .halted } :=
  of_sinkAccepts accepts ((halt_effect s).imp_left And.right)

/-- TRAP entry, bytes written, and the end of the service: what `Served` says of a service that reads nothing. -/
theorem served_of_wrote (s : State) (bytes : List Byte) :
    Served [] bytes s (ended (trapEntry s) (wroteAll bytes s.io)) :=
  ⟨reg_setReg_self s 7 s.pc, rfl, fun r notR7 => reg_setReg_of_ne s 7 r s.pc (List.ne_of_not_mem_cons notR7), fun _ => rfl,
    rfl, rfl, rfl, rfl, rfl, rfl⟩

/-- The same of a service that also reads a byte into R0. -/
theorem served_of_read (s : State) (bytes rest : List Byte) (v : Word) :
    Served [0] bytes s (ended ((trapEntry s).setReg 0 v) (took rest (wroteAll bytes s.io))) := by
  obtain ⟨link, -, others, -⟩ := served_of_wrote s bytes
  refine ⟨?_, rfl, fun r outside => ?_, fun _ => rfl, rfl, rfl, rfl, rfl, rfl, rfl⟩
  · exact (reg_setReg_of_ne (trapEntry s) 0 7 v (by decide)).trans link
  · simp only [List.mem_cons, List.not_mem_nil, or_false, not_or] at outside
    obtain ⟨notR7, notR0⟩ := outside
    exact (reg_setReg_of_ne (trapEntry s) 0 r v notR0).trans (others r (by simpa using notR7))

/-- TRAP whose vector selects a service leaves what that service leaves (R160). -/
theorem exec_trap_of_runService {v : BitVec 8} {service : State → ServiceAnswer} {s t : State}
    (selects : serviceOf v = some service) (ends : runService service s = t) (u : BitVec 4) :
    exec (.trap u v) s = .next t := by
  rw [exec_trap_of_service selects, ends]

/-- Settles O50: each vector selects its service, which runs to its end under the conditions given. -/
theorem trapLinksAndRunsItsService : Obligations.TrapLinksAndRunsItsService := by
  refine ⟨fun u v s service selects => exec_trap_of_service selects s u, fun u v s bytes writes accepts supplied => ?_⟩
  rcases writes with ⟨rfl, rfl⟩ | ⟨rfl, rfl⟩ | ⟨rfl, k, string, rfl⟩ | ⟨rfl, rfl⟩ | ⟨rfl, k, string, rfl⟩ | ⟨rfl, rfl⟩
  · obtain ⟨b, rest, input⟩ := List.exists_cons_of_ne_nil (supplied (.inl rfl))
    have served := served_of_read s [] rest (zextByte b)
    rw [wroteAll_nil] at served
    exact ⟨_, exec_trap_of_runService rfl (runService_getc input) u, served, ⟨b, input, reg_setReg_self _ 0 _⟩, rfl, rfl⟩
  · exact ⟨_, exec_trap_of_runService rfl (runService_out accepts) u, served_of_wrote s _, rfl, rfl, rfl⟩
  · exact ⟨_, exec_trap_of_runService rfl (runService_puts string accepts) u, served_of_wrote s _, rfl, rfl, rfl⟩
  · obtain ⟨b, rest, input⟩ := List.exists_cons_of_ne_nil (supplied (.inr rfl))
    have promptAccepted : s.waiting = false → SinkAccepts s.io Config.inPrompt.length := fun noWait => by
      simpa [noWait] using accepts
    have r0 : ((trapEntry s).setReg 0 (zextByte b)).reg 0 = zextByte b := reg_setReg_self _ 0 _
    exact ⟨_, exec_trap_of_runService rfl (runService_in input promptAccepted) u, served_of_read s _ rest _, ⟨b, input, r0⟩,
      congrArg flagOf r0.symm, rfl⟩
  · exact ⟨_, exec_trap_of_runService rfl (runService_putsp string accepts) u, served_of_wrote s _, rfl, rfl, rfl⟩
  · exact ⟨_, exec_trap_of_runService rfl (runService_halt accepts) u, served_of_wrote s _, rfl, rfl, rfl⟩

end Sys2Proof.Machine
end

section
/-! SUPPORT. Claims of 45_trap_services.md: each service with its channels ready (R171 to R176), its failures (R177), the
wait for input and how the host lifts it (R178), and a string with no zero word (D12). -/

namespace Sys2Proof.Machine

/-! ### Services with their channels ready -/

/-- Every word of a string gives PUTS one byte (R173). -/
@[simp] theorem length_lowBytes (m : Memory) (a : Word) (k : Nat) : (lowBytes m a k).length = k := by
  rw [lowBytes, List.length_map, List.length_range]

/-- Every word of a string gives PUTSP a byte or two (R175). -/
theorem le_length_packedBytes (m : Memory) (a : Word) (k : Nat) : k ≤ (packedBytes m a k).length := by
  rw [packedBytes, List.length_flatMap]
  refine le_of_eq_of_le ?_ (List.length_le_sum_of_one_le _ ?_)
  · rw [List.length_map, List.length_range]
  · simp

/-- A service that reads one byte into R0 and writes nothing. -/
theorem served_of_got (s : State) (rest : List Byte) (v : Word) :
    Served [0] [] s (ended ((trapEntry s).setReg 0 v) (took rest s.io)) := by
  have served := served_of_read s [] rest v
  rwa [wroteAll_nil] at served

/-- The flag of a zero-extended byte is never NEGATIVE (R100, R174, D2). -/
theorem flagOf_zextByte (b : Byte) : flagOf (zextByte b) = if b = 0x00#8 then 0x0002#16 else 0x0001#16 := by
  have isZero : zextByte b = 0x0000#16 ↔ b = 0x00#8 := by
    rw [zextByte, ← BitVec.toNat_inj, ← BitVec.toNat_inj, BitVec.toNat_setWidth_of_le (by decide)]
    rfl
  have notNegative : (zextByte b).getLsbD 15 = false := by
    rw [getLsbD_zextByte]
    rfl
  simp only [flagOf, isZero, notNegative, Config.zero, Config.positive, Bool.false_eq_true, if_false]

/-- Settles O51: TRAP entry, then the byte in R0. -/
theorem getcReadsOneByte : Obligations.GetcReadsOneByte := by
  intro u s b rest supplied
  rw [exec_getc, runService_getc supplied]
  exact ⟨_, rfl, served_of_got s rest _, reg_setReg_self _ 0 _, rfl, rfl, rfl⟩

/-- Settles O52: TRAP entry, then one byte out. -/
theorem outWritesTheLowByte : Obligations.OutWritesTheLowByte := by
  intro u s accepts
  rw [exec_out, runService_out accepts]
  exact ⟨_, rfl, served_of_wrote s _, rfl, rfl, rfl⟩

/-- Settles O53: TRAP entry, then the bytes that the scan of a string with an end gives. -/
theorem putsWritesTheString : Obligations.PutsWritesTheString := by
  intro u s k string accepts
  rw [exec_puts, runService_puts string (by rwa [length_lowBytes])]
  exact ⟨_, rfl, served_of_wrote s _, rfl, rfl, rfl⟩

/-- Settles O54: TRAP entry, then the bytes that the scan of a string with an end gives. -/
theorem putspWritesThePackedString : Obligations.PutspWritesThePackedString := by
  intro u s k string accepts
  rw [exec_putsp, runService_putsp string accepts]
  exact ⟨_, rfl, served_of_wrote s _, rfl, rfl, rfl⟩

/-- Settles O55: TRAP entry, the prompt that is still to write, then the byte in R0 with COND set from it. -/
theorem inPromptsAndReadsOneByte : Obligations.InPromptsAndReadsOneByte := by
  intro u s b rest supplied accepts
  rw [exec_inp, runService_in supplied accepts]
  exact ⟨_, rfl, served_of_read s _ rest _, reg_setReg_self _ 0 _, rfl, flagOf_zextByte b, rfl⟩

/-- Settles O56: TRAP entry, the notice, then HALTED. -/
theorem haltWritesTheNoticeAndEndsTheRun : Obligations.HaltWritesTheNoticeAndEndsTheRun := by
  intro u s accepts
  rw [exec_halt, runService_halt accepts]
  exact ⟨_, rfl, served_of_wrote s _, rfl, rfl, rfl⟩

/-! ### The end of the input stream -/

/-- GETC at the end of the stream (R177). -/
theorem runService_getc_of_eos {s : State} (empty : s.io.input = []) (atEnd : s.io.inputEnded = true) :
    runService serviceGetc s = raiseFatal (.ioFailure .inputEos) s s.io := by
  rcases getc_effect s with ⟨b, rest, input, -⟩ | ⟨-, -, e⟩ | ⟨-, opened, -⟩
  · exact absurd (empty.symm.trans input) nofun
  · exact e
  · exact absurd (atEnd.symm.trans opened) nofun

/-- IN at the end of the stream: the prompt it has still to write goes out first (R174, R177, log entry 5). -/
theorem runService_in_of_eos {s : State} (empty : s.io.input = []) (atEnd : s.io.inputEnded = true)
    (accepts : s.waiting = false → SinkAccepts s.io Config.inPrompt.length) :
    runService serviceIn s = raiseFatal (.ioFailure .inputEos) s (prompted s) := by
  rcases in_effect s with ⟨-, ⟨b, rest, input, -⟩ | ⟨-, -, e⟩ | ⟨-, opened, -⟩⟩ | ⟨noWait, n, room, short, -⟩
  · exact absurd (empty.symm.trans input) nofun
  · exact e
  · exact absurd (atEnd.symm.trans opened) nofun
  · exact absurd (accepts noWait n room) (by omega)

/-- An IN that waited does not write its prompt again (log entry 5). -/
theorem prompted_of_waiting {s : State} (waited : s.waiting = true) : prompted s = s.io := if_pos waited

/-- An IN that did not wait writes its prompt (R174). -/
theorem prompted_of_not_waiting {s : State} (noWait : s.waiting = false) :
    prompted s = wroteAll Config.inPrompt s.io := if_neg (by simp [noWait])

/-- GETC at the end of the stream is fatal (R177). -/
theorem getc_failsWith_of_eos {s : State} (empty : s.io.input = []) (atEnd : s.io.inputEnded = true) :
    FailsWith (.ioFailure .inputEos) [] s (runService serviceGetc s) := by
  rw [runService_getc_of_eos empty atEnd]
  exact raiseFatal_failsWith_nil _ s

/-- IN that waited is fatal at the end of the stream, and writes nothing more (R177, log entry 5). -/
theorem in_failsWith_of_eos_waiting {s : State} (empty : s.io.input = []) (atEnd : s.io.inputEnded = true)
    (waited : s.waiting = true) : FailsWith (.ioFailure .inputEos) [] s (runService serviceIn s) := by
  rw [runService_in_of_eos empty atEnd (by simp [waited]), prompted_of_waiting waited]
  exact raiseFatal_failsWith_nil _ s

/-- IN that did not wait is fatal at the end of the stream, after its prompt (R174, R177). -/
theorem in_failsWith_of_eos {s : State} (empty : s.io.input = []) (atEnd : s.io.inputEnded = true)
    (noWait : s.waiting = false) (accepts : SinkAccepts s.io Config.inPrompt.length) :
    FailsWith (.ioFailure .inputEos) Config.inPrompt s (runService serviceIn s) := by
  rw [runService_in_of_eos empty atEnd fun _ => accepts, prompted_of_not_waiting noWait]
  exact raiseFatal_failsWith _ s rfl rfl rfl

/-! ### A sink that fails -/

/-- A fatal error after the sink took `n` bytes of `bs` keeps those bytes written (R177, R203). -/
theorem wrotePart_failsWith (s : State) (bs : List Byte) (n : Nat) :
    FailsWith (.ioFailure .outputFail) (bs.take n) s (raiseFatal (.ioFailure .outputFail) s (wrotePart bs n s.io)) :=
  raiseFatal_failsWith _ s rfl rfl rfl

/-- A service that writes `bs` and does nothing else fails under a sink with less room. -/
theorem failsWith_of_short_sink {service : State → ServiceAnswer} {s : State} {bs : List Byte} {n : Nat} {success : Prop}
    (effect : ((∀ m, s.io.sinkRoom = some m → bs.length ≤ m) ∧ success) ∨
      ∃ m, s.io.sinkRoom = some m ∧ m < bs.length ∧
        runService service s = raiseFatal (.ioFailure .outputFail) s (wrotePart bs m s.io))
    (room : s.io.sinkRoom = some n) (short : n < bs.length) :
    FailsWith (.ioFailure .outputFail) (bs.take n) s (runService service s) := by
  rcases effect with ⟨roomy, -⟩ | ⟨m, room', -, e⟩
  · exact absurd (roomy n room) (by omega)
  · obtain rfl : n = m := Option.some.inj (room.symm.trans room')
    rw [e]
    exact wrotePart_failsWith s bs n

/-- An IN that did not wait writes its prompt whole, or fails within it (R174, R177). -/
theorem in_writes_prompt_or_fails {s : State} {n : Nat} (room : s.io.sinkRoom = some n) (noWait : s.waiting = false) :
    (Config.inPrompt.length ≤ n ∧ (runService serviceIn s).io.output = s.io.output ++ Config.inPrompt) ∨
    (n < Config.inPrompt.length ∧
      FailsWith (.ioFailure .outputFail) (Config.inPrompt.take n) s (runService serviceIn s)) := by
  rcases in_effect s with ⟨roomy, answers⟩ | ⟨-, m, room', short, e⟩
  · refine .inl ⟨roomy noWait n room, ?_⟩
    rw [prompted_of_not_waiting noWait] at answers
    rcases answers with ⟨b, rest, -, e⟩ | ⟨-, -, e⟩ | ⟨-, -, e⟩ <;> rw [e] <;> rfl
  · obtain rfl : n = m := Option.some.inj (room.symm.trans room')
    rw [e]
    exact .inr ⟨short, wrotePart_failsWith s Config.inPrompt n⟩

/-- HALT writes its notice whole and halts, or fails within it (R176, R177). -/
theorem halt_halts_or_fails {s : State} {n : Nat} (room : s.io.sinkRoom = some n) :
    (Config.haltNotice.length ≤ n ∧ (runService serviceHalt s).runState = .halted) ∨
    (n < Config.haltNotice.length ∧
      FailsWith (.ioFailure .outputFail) (Config.haltNotice.take n) s (runService serviceHalt s)) := by
  rcases Nat.lt_or_ge n Config.haltNotice.length with short | fits
  · exact .inr ⟨short, failsWith_of_short_sink (halt_effect s) room short⟩
  · have accepts : SinkAccepts s.io Config.haltNotice.length := by simpa [SinkAccepts, room] using fits
    rw [runService_halt accepts]
    exact .inl ⟨fits, rfl⟩

/-- Settles O57: the end of the stream in the services that read, a short sink in the services that write. -/
theorem ioFailureIsFatal : Obligations.IoFailureIsFatal := by
  refine fun u s => ⟨fun empty atEnd => ⟨?getcEos, ?waitedEos, ?inEos⟩,
    fun n room => ⟨?out, ?puts, ?putsp, fun noZero => ⟨?putsLap, ?putspLap⟩, ?inp, ?halt⟩⟩
  case getcEos => exact ⟨_, exec_getc s u, getc_failsWith_of_eos empty atEnd⟩
  case waitedEos => exact fun waited => ⟨_, exec_inp s u, in_failsWith_of_eos_waiting empty atEnd waited⟩
  case inEos => exact fun noWait accepts => ⟨_, exec_inp s u, in_failsWith_of_eos empty atEnd noWait accepts⟩
  case out =>
    rintro rfl
    exact ⟨_, exec_out s u,
      failsWith_of_short_sink (bs := [lowByte ((trapEntry s).reg 0)]) (out_effect s) room Nat.one_pos⟩
  case puts =>
    intro k string short
    exact ⟨_, exec_puts s u, failsWith_of_short_sink
      (string_effect_ends putsBytes s k string _ (flatMap_putsBytes _ _ k)) room (by rwa [length_lowBytes])⟩
  case putsp =>
    intro k string short
    exact ⟨_, exec_putsp s u, failsWith_of_short_sink
      (string_effect_ends putspBytes s k string _ (flatMap_putspBytes _ _ k)) room short⟩
  case putsLap =>
    intro short
    exact ⟨_, exec_puts s u, failsWith_of_short_sink
      (string_effect_endless putsBytes s noZero _ (flatMap_putsBytes _ _ _)) room short⟩
  case putspLap =>
    intro short
    exact ⟨_, exec_putsp s u, failsWith_of_short_sink
      (string_effect_endless putspBytes s noZero _ (flatMap_putspBytes _ _ _)) room short⟩
  case inp => exact fun noWait => ⟨_, exec_inp s u, in_writes_prompt_or_fails room noWait⟩
  case halt => exact ⟨_, exec_halt s u, halt_halts_or_fails room⟩

/-! ### A string with no zero word -/

/-- An instruction that is back where it began, before its fetch, has the ten slots of then. -/
theorem slot_midway_fetch (s : State) (io : Channels) (w : Bool) (i : Fin 10) : (midway s.fetch io w).slot i = s.slot i := rfl

/-- A running step whose word decodes to `i` executes `i` on the state fetch left (R61 to R63). -/
theorem step_of_decoded {s : State} {i : Instr} (running : s.runState = .running)
    (decodes : decodeWord (s.mem.read s.pc) = i) : step s = exec i s.fetch := by
  rw [step_running s running, fetch_ir, decodes]

/-- Written bytes and a return to before the fetch, with no wait, are a lap (log entry 6). -/
theorem midway_writesOneLap {s : State} (running : s.runState = .running) (lap : List Byte) :
    WritesOneLap lap s (midway s.fetch (wroteAll lap s.io) false) :=
  ⟨running, slot_midway_fetch s _ _, fun _ => rfl, rfl, rfl, rfl, rfl, rfl⟩

/-- A step whose instruction writes a string writes a lap of memory when no word is zero and the sink accepts it (D12). -/
theorem step_writesOneLap {s : State} {i : Instr} {bytes : Word → List Byte} {lap : List Byte}
    (running : s.runState = .running) (noZero : ∀ a : Word, s.mem.read a ≠ 0x0000#16)
    (decodes : decodeWord (s.mem.read s.pc) = i)
    (writes : exec i s.fetch = .next (runService (serviceString bytes) s.fetch))
    (isLap : (List.range Config.memWords).flatMap (fun j => bytes (s.mem.read (s.reg 0 + BitVec.ofNat 16 j))) = lap)
    (accepts : SinkAccepts s.io lap.length) : ∃ t, step s = .next t ∧ WritesOneLap lap s t := by
  have laps : runService (serviceString bytes) s.fetch = midway s.fetch (wroteAll lap s.io) false :=
    of_sinkAccepts accepts ((string_effect_endless bytes s.fetch noZero lap isLap).imp_left And.right)
  rw [step_of_decoded running decodes, writes, laps]
  exact ⟨_, rfl, midway_writesOneLap running lap⟩

/-- Settles O59: the scan of a string with no zero word gives the bytes of a whole lap and finds no end. -/
theorem stringWithNoZeroWordNeverEnds : Obligations.StringWithNoZeroWordNeverEnds := by
  intro s running noZero
  refine ⟨(length_lowBytes _ _ _).ge, le_length_packedBytes _ _ _, fun u decodes => ?_, fun u decodes => ?_⟩
  · exact step_writesOneLap running noZero decodes (exec_puts s.fetch u) (flatMap_putsBytes _ _ _)
  · exact step_writesOneLap running noZero decodes (exec_putsp s.fetch u) (flatMap_putspBytes _ _ _)

/-! ### The wait for input -/

/-- GETC with no byte there and the stream not ended (R178). -/
theorem runService_getc_of_blocked {s : State} (empty : s.io.input = []) (opened : s.io.inputEnded = false) :
    runService serviceGetc s = midway s s.io true := by
  rcases getc_effect s with ⟨b, rest, input, -⟩ | ⟨-, atEnd, -⟩ | ⟨-, -, e⟩
  · exact absurd (empty.symm.trans input) nofun
  · exact absurd (opened.symm.trans atEnd) nofun
  · exact e

/-- IN with no byte there and the stream not ended: the prompt it has still to write goes out first (R174, R178). -/
theorem runService_in_of_blocked {s : State} (empty : s.io.input = []) (opened : s.io.inputEnded = false)
    (accepts : s.waiting = false → SinkAccepts s.io Config.inPrompt.length) :
    runService serviceIn s = midway s (prompted s) true := by
  rcases in_effect s with ⟨-, ⟨b, rest, input, -⟩ | ⟨-, atEnd, -⟩ | ⟨-, -, e⟩⟩ | ⟨noWait, n, room, short, -⟩
  · exact absurd (empty.symm.trans input) nofun
  · exact absurd (opened.symm.trans atEnd) nofun
  · exact e
  · exact absurd (accepts noWait n room) (by omega)

/-- Settles O58: the three waits are states in the middle of the instruction, with the channels after the prompt. -/
theorem getcAndInWaitForInput : Obligations.GetcAndInWaitForInput := by
  intro u s empty opened
  refine ⟨?_, fun waited => ?_, fun noWait accepts => ?_⟩
  · rw [exec_getc, runService_getc_of_blocked empty opened]
    exact ⟨_, rfl, rfl⟩
  · rw [exec_inp, runService_in_of_blocked empty opened (by simp [waited]), prompted_of_waiting waited, ← waited]
    exact ⟨_, rfl, rfl⟩
  · rw [exec_inp, runService_in_of_blocked empty opened fun _ => accepts, prompted_of_not_waiting noWait]
    exact ⟨_, rfl, rfl⟩

/-- Only GETC and IN can wait. -/
theorem waits_cases {i : Instr} (canWait : waits i = true) : (∃ u, i = .getc u) ∨ ∃ u, i = .inp u := by
  cases i with
  | getc u => exact .inl ⟨u, rfl⟩
  | inp u => exact .inr ⟨u, rfl⟩
  | _ => cases canWait

/-- A GETC or an IN that waits found no byte, and the stream not ended (R178). -/
theorem blocked_of_exec_waiting {s t : State} {i : Instr} (canWait : waits i = true) (executed : exec i s = .next t)
    (w : t.waiting = true) : s.io.input = [] ∧ s.io.inputEnded = false := by
  rcases waits_cases canWait with ⟨u, rfl⟩ | ⟨u, rfl⟩
  · obtain rfl := Host.Outcome.next.inj ((exec_getc s u).symm.trans executed)
    rcases getc_effect s with ⟨b, rest, -, e⟩ | ⟨-, -, e⟩ | ⟨empty, opened, -⟩
    · rw [e] at w; cases w
    · rw [e] at w; cases w
    · exact ⟨empty, opened⟩
  · obtain rfl := Host.Outcome.next.inj ((exec_inp s u).symm.trans executed)
    rcases in_effect s with ⟨-, ⟨b, rest, -, e⟩ | ⟨-, -, e⟩ | ⟨empty, opened, -⟩⟩ | ⟨-, n, -, -, e⟩
    · rw [e] at w; cases w
    · rw [e] at w; cases w
    · exact ⟨empty, opened⟩
    · rw [e] at w; cases w

/-- A running step that leaves a wait is that of a GETC or an IN that finds no input, and changes nothing but what the sink
took (R178, log entry 5). -/
theorem midway_of_step_waiting {s t : State} (inv : s.Inv) (running : s.runState = .running) (stepped : step s = .next t)
    (w : t.waiting = true) :
    waits (decodeWord (s.mem.read s.pc)) = true ∧ s.io.input = [] ∧ s.io.inputEnded = false ∧
      ∃ io, t = midway s.fetch io true ∧ io.input = [] ∧ io.inputEnded = false := by
  obtain ⟨-, -, waitLegal, -⟩ := inv
  have shape := step_shape running stepped
  obtain ⟨canWait, isMidway⟩ := shape_waiting shape (fun resumed => (waitLegal resumed).2) w
  obtain ⟨empty, opened⟩ := blocked_of_exec_waiting canWait ((step_of_decoded running rfl).symm.trans stepped) w
  obtain ⟨⟨-, sameEnd⟩, sameInput | ⟨-, b, taken, -⟩⟩ := shape_channels shape
  · exact ⟨canWait, empty, opened, t.io, isMidway, sameInput.trans empty, sameEnd.trans opened⟩
  · exact absurd (empty.symm.trans taken) nofun

/-- Settles O16: a wait is the state in the middle of the instruction. -/
theorem onlyGetcAndInWait : Obligations.OnlyGetcAndInWait := by
  intro s t inv running stepped w
  obtain ⟨canWait, empty, opened, io, rfl, stillEmpty, -⟩ := midway_of_step_waiting inv running stepped w
  exact ⟨canWait, empty, opened, running, slot_midway_fetch s io true, fun _ => rfl, stillEmpty⟩

/-! ### How the host lifts a wait -/

/-- A GETC or an IN that waited and finds a byte reads it into R0, writes nothing and goes on (R171, R174). -/
theorem exec_waits_of_supplied {s : State} {i : Instr} {b : Byte} {rest : List Byte} (canWait : waits i = true)
    (waited : s.waiting = true) (supplied : s.io.input = b :: rest) :
    ∃ u, exec i s = .next u ∧ Served [0] [] s u ∧ u.reg 0 = b.setWidth 16 ∧ u.io.input = rest ∧
      u.runState = s.runState := by
  rcases waits_cases canWait with ⟨x, rfl⟩ | ⟨x, rfl⟩
  · obtain ⟨u, executed, served, r0, input, -, goesOn⟩ := getcReadsOneByte x s b rest supplied
    exact ⟨u, executed, served, r0, input, goesOn⟩
  · obtain ⟨u, executed, served, r0, input, -, goesOn⟩ := inPromptsAndReadsOneByte x s b rest supplied (by simp [waited])
    rw [if_pos waited] at served
    exact ⟨u, executed, served, r0, input, goesOn⟩

/-- A GETC or an IN that waited and finds the end of the stream is fatal and writes nothing (R177). -/
theorem exec_waits_of_eos {s : State} {i : Instr} (canWait : waits i = true) (waited : s.waiting = true)
    (empty : s.io.input = []) (atEnd : s.io.inputEnded = true) :
    ∃ u, exec i s = .next u ∧ FailsWith (.ioFailure .inputEos) [] s u := by
  rcases waits_cases canWait with ⟨x, rfl⟩ | ⟨x, rfl⟩
  · exact ⟨_, exec_getc s x, getc_failsWith_of_eos empty atEnd⟩
  · exact ⟨_, exec_inp s x, in_failsWith_of_eos_waiting empty atEnd waited⟩

/-- States with the same registers, PC and COND have the same ten slots. -/
theorem slot_eq_of_parts {s t : State} (regs : ∀ r, t.reg r = s.reg r) (pc : t.pc = s.pc) (cond : t.cond = s.cond)
    (i : Fin 10) : t.slot i = s.slot i := by
  simp only [State.slot, regs, pc, cond]

/-- A byte supplied while the stream goes on is the last of INPUT (R178, log entry 8). -/
theorem supplyByte_io_of_opened {s : State} (b : Byte) (opened : s.io.inputEnded = false) :
    (supplyByte b s).io = { s.io with input := s.io.input ++ [b] } := by
  simp [supplyByte, opened]

section
variable {t : State} (running : t.runState = .running) (waited : t.waiting = true)
  (canWait : waits (decodeWord (t.mem.read t.pc)) = true) (empty : t.io.input = [])
include running waited canWait empty

/-- From a wait, the step after the host supplied a byte reads that byte into R0 and goes on (R178). -/
theorem step_supplyByte_of_waiting (b : Byte) (opened : t.io.inputEnded = false) :
    ∃ u, step (supplyByte b t) = .next u ∧ u.reg 0 = b.setWidth 16 ∧ u.reg 7 = t.pc + 1 ∧ u.pc = t.pc + 1 ∧
      u.runState = .running ∧ u.waiting = false ∧ u.io.output = t.io.output ∧ u.io.input = [] := by
  have io := supplyByte_io_of_opened b opened
  have supplied : (supplyByte b t).fetch.io.input = b :: [] := by simp [io, empty]
  have decodes : decodeWord ((supplyByte b t).mem.read (supplyByte b t).pc) = decodeWord (t.mem.read t.pc) := by simp
  obtain ⟨u, executed, ⟨r7, pc, -, -, -, -, output, -, -, noWait⟩, r0, input, goesOn⟩ :=
    exec_waits_of_supplied canWait (by simpa using waited) supplied
  rw [step_of_decoded (by simpa using running) decodes]
  refine ⟨u, executed, r0, by simpa using r7, by simpa using pc, by simpa [running] using goesOn, noWait, ?_, input⟩
  simpa [io] using output

/-- From a wait, the step after the host ended the stream is fatal, with the slots as they were (R177, R178, R203). -/
theorem step_endInput_of_waiting :
    ∃ u, step (endInput t) = .next u ∧ u.runState = .fatal ⟨.ioFailure .inputEos, t.mem.read t.pc, t.pc⟩ ∧
      (∀ i : Fin 10, u.slot i = t.slot i) ∧ u.waiting = false ∧ u.io.output = t.io.output := by
  obtain ⟨u, executed, fatal, pc, regs, cond, -, output, -, -, -, -, noWait⟩ :=
    exec_waits_of_eos (s := (endInput t).fetch) canWait waited empty rfl
  rw [step_of_decoded (s := endInput t) running rfl]
  refine ⟨u, executed, fatal, slot_eq_of_parts (fun r => regs r (List.not_mem_nil)) pc cond, noWait, ?_⟩
  exact output.trans (List.append_nil _)

end

/-- Settles O17: in a wait, PC and memory are those before the fetch, and INPUT is empty and not ended. -/
theorem hostLiftsTheWait : Obligations.HostLiftsTheWait := by
  intro s t b inv running stepped w
  obtain ⟨canWait, -, -, io, rfl, stillEmpty, stillOpened⟩ := midway_of_step_waiting inv running stepped w
  exact ⟨step_supplyByte_of_waiting (t := midway s.fetch io true) running w canWait stillEmpty b stillOpened,
    step_endInput_of_waiting (t := midway s.fetch io true) running w canWait stillEmpty⟩

end Sys2Proof.Machine
end

section
/-! SUPPORT. Claims of 60_exceptions.md: which instruction raises which cause (R201, R205), and the state a Fatal outcome leaves
(R202, R203). -/

namespace Sys2Proof

/-! ### What a word's decoding says of its fields -/

/-- A word has the fields of the encoding of what it decodes to. -/
theorem field_of_decodeWord {w : Word} {i : Instr} (decodes : decodeWord w = i) (lo len : Nat) :
    field w lo len = field (encode i) lo len := by
  rw [← decodes, encode_decodeWord]

/-- Opcode 15 is TRAP (R64, D1). -/
theorem decodeWord_of_trap {w : Word} (op : field w 12 4 = 0xF#4) : decodeWord w = decodeTrap w := by
  rw [decodeWord, op]; rfl

/-- The vectors that select no service are those outside 0x20 to 0x25 (R78, R161). -/
theorem isServiceVector_eq_false_iff (v : BitVec 8) : isServiceVector v = false ↔ v.toNat < 0x20 ∨ 0x25 < v.toNat := by
  simp only [isServiceVector, Bool.and_eq_false_iff, decide_eq_false_iff_not, Nat.not_le]

end Sys2Proof

namespace Sys2Proof.Machine

/-! ### The ways an instruction ends in FATAL -/

/-- The services that write, each with its unread bits `u`. -/
def writers (u : BitVec 4) : List Instr := [.out u, .puts u, .inp u, .putsp u, .halt u]

/-- On the state `s` that fetch left, an instruction is fatal with the given cause and leaves the given channels (R201). -/
inductive FatalBy (s : State) : Instr → Cause → Channels → Prop where
  | rti (u : BitVec 12) : FatalBy s (.rti u) .illegalOpcode s.io
  | res (u : BitVec 12) : FatalBy s (.res u) .illegalOpcode s.io
  | unknown (u : BitVec 4) (v : BitVec 8) (notService : isServiceVector v = false) :
      FatalBy s (.trap u v) .unknownTrapVector s.io
  | eos {i : Instr} {io : Channels} (canWait : waits i = true) (empty : s.io.input = []) (atEnd : s.io.inputEnded = true)
      (forward : Forward s.io io) (kept : io.input = s.io.input) : FatalBy s i (.ioFailure .inputEos) io
  | sink {i : Instr} (u : BitVec 4) (writes : i ∈ writers u) (bs : List Byte) (n : Nat) :
      FatalBy s i (.ioFailure .outputFail) (wrotePart bs n s.io)

/-- A string service ends in FATAL only by the sink's failure (R177). -/
theorem string_fatalBy {bytes : Word → List Byte} {s : State} {i : Instr} {u : BitVec 4} {report : FatalReport}
    (writes : i ∈ writers u) (running : s.runState = .running)
    (f : (runService (serviceString bytes) s).runState = .fatal report) :
    ∃ why io, runService (serviceString bytes) s = raiseFatal why s io ∧ FatalBy s i why io := by
  obtain ⟨bs, found, -, ⟨-, -, e⟩ | ⟨-, -, e⟩ | ⟨n, -, -, e⟩⟩ := string_effect bytes s <;> rw [e] at f ⊢
  · exact absurd (running.symm.trans f) nofun
  · exact absurd (running.symm.trans f) nofun
  · exact ⟨_, _, rfl, .sink u writes bs n⟩

/-- An instruction that ends in FATAL raised the error in one of those ways. -/
theorem effect_fatalBy {s t : State} {i : Instr} {report : FatalReport} (effect : Effect s i t)
    (running : s.runState = .running) (f : t.runState = .fatal report) :
    ∃ why io, t = raiseFatal why s io ∧ FatalBy s i why io := by
  cases effect with
  | define | st | sti | str | jump | call => exact absurd (running.symm.trans f) nofun
  | rti u => exact ⟨_, _, rfl, .rti u⟩
  | res u => exact ⟨_, _, rfl, .res u⟩
  | unknown u v notService => exact ⟨_, _, rfl, .unknown u v notService⟩
  | getc u =>
    rcases getc_effect s with ⟨b, rest, -, e⟩ | ⟨empty, atEnd, e⟩ | ⟨-, -, e⟩ <;> rw [e] at f ⊢
    · exact absurd (running.symm.trans f) nofun
    · exact ⟨_, _, rfl, .eos rfl empty atEnd (forward_refl _) rfl⟩
    · exact absurd (running.symm.trans f) nofun
  | out u =>
    rcases out_effect s with ⟨-, e⟩ | ⟨n, -, -, e⟩ <;> rw [e] at f ⊢
    · exact absurd (running.symm.trans f) nofun
    · exact ⟨_, _, rfl, .sink u (by simp [writers]) _ n⟩
  | puts u => exact string_fatalBy (u := u) (by simp [writers]) running f
  | inp u =>
    rcases in_effect s with ⟨-, ⟨b, rest, -, e⟩ | ⟨empty, atEnd, e⟩ | ⟨-, -, e⟩⟩ | ⟨-, n, -, -, e⟩ <;> rw [e] at f ⊢
    · exact absurd (running.symm.trans f) nofun
    · exact ⟨_, _, rfl, .eos rfl empty atEnd (forward_prompted s) (prompted_input s)⟩
    · exact absurd (running.symm.trans f) nofun
    · exact ⟨_, _, rfl, .sink u (by simp [writers]) _ n⟩
  | putsp u => exact string_fatalBy (u := u) (by simp [writers]) running f
  | halt u =>
    rcases halt_effect s with ⟨-, e⟩ | ⟨n, -, -, e⟩ <;> rw [e] at f ⊢
    · cases f
    · exact ⟨_, _, rfl, .sink u (by simp [writers]) _ n⟩

/-- A running step that ends in FATAL raised the error on the state fetch left, in one of those ways. -/
theorem step_fatalBy {s t : State} {report : FatalReport} (running : s.runState = .running) (stepped : step s = .next t)
    (f : t.runState = .fatal report) :
    ∃ why io, t = raiseFatal why s.fetch io ∧ FatalBy s.fetch (decodeWord (s.mem.read s.pc)) why io :=
  effect_fatalBy (step_effect running stepped) running f

/-- However an instruction is fatal, the sink's accepted bytes stay written and no input byte is taken (R203). -/
theorem fatalBy_channels {s : State} {i : Instr} {why : Cause} {io : Channels} (h : FatalBy s i why io) :
    s.io.output <+: io.output ∧ io.input = s.io.input := by
  cases h with
  | rti | res | unknown => exact ⟨List.prefix_rfl, rfl⟩
  | eos _ _ _ forward kept =>
    obtain ⟨grows, -⟩ := forward
    exact ⟨grows, kept⟩
  | sink => exact ⟨List.prefix_append _ _, rfl⟩

/-- Settles O20: the error was raised on the state fetch left, whose fetch `raiseFatal` takes back. -/
theorem fatalLeavesTheStateBeforeTheFetch : Obligations.FatalLeavesTheStateBeforeTheFetch := by
  intro s t r running stepped f
  obtain ⟨why, io, rfl, fatalBy⟩ := step_fatalBy running stepped f
  obtain ⟨grows, kept⟩ := fatalBy_channels fatalBy
  cases f
  exact ⟨fun _ => rfl, fun _ => rfl, rfl, rfl, grows, kept⟩

/-! ### The instruction behind each cause -/

/-- The state is FATAL with this cause (R202). -/
def FatalWith (why : Cause) (t : State) : Prop := ∃ r, t.runState = .fatal r ∧ r.cause = why

/-- Only RTI and RES raise ILLEGAL_OPCODE (R162, R163, R201). -/
theorem fatalBy_illegalOpcode {s : State} {i : Instr} {io : Channels} (h : FatalBy s i .illegalOpcode io) :
    (∃ u, i = .rti u) ∨ ∃ u, i = .res u := by
  cases h with
  | rti u => exact .inl ⟨u, rfl⟩
  | res u => exact .inr ⟨u, rfl⟩

/-- Only TRAP itself raises UNKNOWN_TRAP_VECTOR (R161, R201). -/
theorem fatalBy_unknownTrapVector {s : State} {i : Instr} {io : Channels} (h : FatalBy s i .unknownTrapVector io) :
    ∃ u v, i = .trap u v := by
  cases h with
  | unknown u v => exact ⟨u, v, rfl⟩

/-- The end of input is fatal only to a GETC or an IN that finds it (R177). -/
theorem fatalBy_inputEos {s : State} {i : Instr} {io : Channels} (h : FatalBy s i (.ioFailure .inputEos) io) :
    waits i = true ∧ s.io.input = [] ∧ s.io.inputEnded = true := by
  cases h with
  | eos canWait empty atEnd => exact ⟨canWait, empty, atEnd⟩

/-- A failing sink is fatal only to a service that writes, and has no room left (R177). -/
theorem fatalBy_outputFail {s : State} {i : Instr} {io : Channels} (h : FatalBy s i (.ioFailure .outputFail) io) :
    (∃ u, i ∈ writers u) ∧ io.sinkRoom = some 0 := by
  cases h with
  | sink u writes => exact ⟨⟨u, writes⟩, rfl⟩

/-- The word of a service that writes is a TRAP with a vector from 0x21 to 0x25 (R78, R172 to R176). -/
theorem field_encode_of_writer {u : BitVec 4} {i : Instr} (writes : i ∈ writers u) :
    field (encode i) 12 4 = 0xF#4 ∧ 0x21 ≤ (field (encode i) 0 8).toNat ∧ (field (encode i) 0 8).toNat ≤ 0x25 := by
  simp only [writers, List.mem_cons, List.not_mem_nil, or_false] at writes
  rcases writes with rfl | rfl | rfl | rfl | rfl <;> simp [encode]

section
variable {s t : State} (running : s.runState = .running) (stepped : step s = .next t)
include running stepped

/-- A running step that ends in FATAL with a cause raised that cause. -/
theorem fatalBy_of_fatalWith {why : Cause} (fatal : FatalWith why t) :
    FatalBy s.fetch (decodeWord (s.mem.read s.pc)) why t.io := by
  obtain ⟨r, f, rfl⟩ := fatal
  obtain ⟨why, io, rfl, fatalBy⟩ := step_fatalBy running stepped f
  cases f
  exact fatalBy

/-- A running step whose instruction raises an error ends in FATAL with its cause. -/
theorem fatalWith_of_raises {i : Instr} {why : Cause} {io : Channels} (decodes : decodeWord (s.mem.read s.pc) = i)
    (raises : exec i s.fetch = .next (raiseFatal why s.fetch io)) : FatalWith why t := by
  rw [step_of_decoded running decodes, raises] at stepped
  cases stepped
  exact ⟨_, rfl, rfl⟩

/-- ILLEGAL_OPCODE is the cause of opcodes 8 and 13 (R162, R163, D1). -/
theorem fatalWith_illegalOpcode_iff : FatalWith .illegalOpcode t ↔
    field (s.mem.read s.pc) 12 4 = 0x8#4 ∨ field (s.mem.read s.pc) 12 4 = 0xD#4 := by
  constructor
  · intro fatal
    rcases fatalBy_illegalOpcode (fatalBy_of_fatalWith running stepped fatal) with ⟨u, decodes⟩ | ⟨u, decodes⟩
    · exact .inl (by simp [field_of_decodeWord decodes, encode])
    · exact .inr (by simp [field_of_decodeWord decodes, encode])
  · obtain ⟨isRti, isRes, -⟩ := rtiAndResAreFatal
    rintro (op | op)
    · exact fatalWith_of_raises running stepped (isRti _ op) (exec_rti _ _)
    · exact fatalWith_of_raises running stepped (isRes _ op) (exec_res _ _)

/-- UNKNOWN_TRAP_VECTOR is the cause of opcode 15 with a vector that selects no service (R161, D1). -/
theorem fatalWith_unknownTrapVector_iff : FatalWith .unknownTrapVector t ↔
    field (s.mem.read s.pc) 12 4 = 0xF#4 ∧ isServiceVector (field (s.mem.read s.pc) 0 8) = false := by
  constructor
  · intro fatal
    obtain ⟨u, v, decodes⟩ := fatalBy_unknownTrapVector (fatalBy_of_fatalWith running stepped fatal)
    obtain ⟨op, rfl, notService⟩ := decodeWord_trap decodes
    exact ⟨op, notService⟩
  · rintro ⟨op, notService⟩
    exact fatalWith_of_raises running stepped ((decodeWord_of_trap op).trans (decodeTrap_of_unknown notService))
      (exec_trap_of_unknown notService _ _)

/-- The end of input is the cause of a GETC or an IN that found it (R177, R205). -/
theorem inputEos_of_fatalWith (fatal : FatalWith (.ioFailure .inputEos) t) :
    waits (decodeWord (s.mem.read s.pc)) = true ∧ s.io.input = [] ∧ s.io.inputEnded = true :=
  fatalBy_inputEos (s := s.fetch) (fatalBy_of_fatalWith running stepped fatal)

/-- A sink that failed is the cause of a TRAP with the vector of a service that writes (R177, R205). -/
theorem outputFail_of_fatalWith (fatal : FatalWith (.ioFailure .outputFail) t) :
    field (s.mem.read s.pc) 12 4 = 0xF#4 ∧ 0x21 ≤ (field (s.mem.read s.pc) 0 8).toNat ∧
      (field (s.mem.read s.pc) 0 8).toNat ≤ 0x25 ∧ t.io.sinkRoom = some 0 := by
  obtain ⟨⟨u, writes⟩, noRoom⟩ := fatalBy_outputFail (fatalBy_of_fatalWith running stepped fatal)
  obtain ⟨op, atLeast, atMost⟩ := field_encode_of_writer writes
  rw [encode_decodeWord] at op atLeast atMost
  exact ⟨op, atLeast, atMost, noRoom⟩

end

/-- Settles O19: a fatal step raised its cause in one of the ways of `FatalBy`, and opcodes 8 and 13 and an unknown vector
always raise theirs. -/
theorem fatalCausesAreExactlyThese : Obligations.FatalCausesAreExactlyThese := by
  intro s t running stepped
  refine ⟨fatalWith_illegalOpcode_iff running stepped, ?_, inputEos_of_fatalWith running stepped,
    outputFail_of_fatalWith running stepped⟩
  rw [← isServiceVector_eq_false_iff]
  exact fatalWith_unknownTrapVector_iff running stepped

end Sys2Proof.Machine
end

section
/-! SUPPORT. Claim of 95_test_vectors.md, sections 2.1 to 2.6: the words it writes out, decoded (D1, log entry 12). -/

namespace Sys2Proof

/-- A word that a well-formed instruction encodes to decodes to that instruction. -/
theorem decodeWord_eq_of_encode_eq {i : Instr} {w : Word} (wf : i.wellFormed = true) (encodes : encode i = w) :
    decodeWord w = i := by
  rw [← encodes, decodeWord_encode i wf]

/-- Settles O3: each listed instruction is well-formed and its fields are placed to give the listed word, so the decoder
reads it back. -/
theorem specWordsDecodeAsListed : Obligations.SpecWordsDecodeAsListed := by
  unfold Obligations.SpecWordsDecodeAsListed
  and_intros <;> exact decodeWord_eq_of_encode_eq (by decide) (by decide)

end Sys2Proof
end
